-- ==== Sys2Proof/Word.lean ====
section
/-! DEFINITION. The widths of the block, spec/00_scope.md R4 and R5: what the spec treats as bits is a bit vector of the
spec's own width, bit 0 least significant (R6), unsigned throughout (R7). -/

namespace Sys2Proof

/-- A Register State, `REG_W = 17` bits (R4, R16). -/
abbrev RegState := BitVec 17

/-- A tap mask of the Polynomial Table, `WORK_W = 21` bits (R4, R31). -/
abbrev TapMask := BitVec 21

/-- The step counter and the result, `CNT_W = RESULT_W = 32` bits (R5, R17, R18). -/
abbrev Count := BitVec 32

/-- The request word, `REQ_W = 32` bits (R5, R45). -/
abbrev Request := BitVec 32

/-- A legal polynomial index, as `SEL` holds it: 2 bits (R13, R15). -/
abbrev PolyIndex := BitVec 2

/-- The index of a checkpoint entry: 4 bits, 0..15 (R22, R32). -/
abbrev EntryIndex := BitVec 4

/-- The `STATUS` code: 2 bits (R13, R19). -/
abbrev StatusCode := BitVec 2

end Sys2Proof
end

