-- ==== Sys2Proof/Syntax.lean ====
section
/-! DEFINITION. The instruction set: the one row of spec/opcode_table.json. -/

namespace Sys2Proof

/-- The block's one operation (spec/30_encoding.md R57, spec/42_recover.md R90). -/
inductive Instr where
  /-- RECOVER: "a polynomial index `IDX` (8 bits, legal 0..3) and observed bits `OBS` (24 bits, of which the low 17 are used)"
  (R90). The table's `idx` is the low two bits of `idx`, its `obs` is `obs[16:0]`, its `obs_ignored` is `obs[23:17]` (log 20). -/
  | recover (idx : BitVec 8) (obs : BitVec 24)
  deriving DecidableEq, Repr

end Sys2Proof
end

