-- ==== Sys2Proof/WellFormed.lean ====
section
/-! DEFINITION. Which instructions are well formed. -/

namespace Sys2Proof

/-- A RECOVER is legal iff its index is 0..3 (spec/30_encoding.md R46, R48); every `obs` is allowed (R49). -/
def Instr.wellFormed : Instr → Bool
  | .recover idx _ => decide (idx ≤ 3#8)

end Sys2Proof
end

