-- ==== Sys2Proof/Decode.lean ====
section
/-! DEFINITION. The decoder, total on the 2^32 request words and rejecting by name, and the encoder
(spec/30_encoding.md R45 to R50, R54, R55, R57). A request is one 32-bit word; how a bus would split it into bytes belongs to
`HOST_BINDING` (spec/20_memory.md R38; log 17). -/

namespace Sys2Proof

/-- Why a request word is no legal RECOVER: its `IDX` is 4..255 (R48). -/
inductive DecodeError where
  /-- The illegal index that the word carries. -/
  | badIndex (idx : BitVec 8)
  deriving DecidableEq, Repr

/-- `IDX = req[31:24]` (R45, R46). -/
def indexField (w : Request) : BitVec 8 := w.extractLsb' 24 8

/-- `OBS = req[23:0]` (R45). -/
def obsField (w : Request) : BitVec 24 := w.extractLsb' 0 24

/-- Every word is a legal RECOVER, or illegal by its `IDX` alone (R45, R48, R50). -/
def decode (w : Request) : Except DecodeError Instr :=
  let i := Instr.recover (indexField w) (obsField w)
  if i.wellFormed then .ok i else .error (.badIndex (indexField w))

/-- The request word of an instruction: `{IDX, OBS}` (R45). -/
def encode : Instr → Request
  | .recover idx obs => idx ++ obs

/-- The instruction the decoder reads from the word whose low `nbits` bits are those of `w` and whose other bits are 0, numbered
as spec/opcode_table.json numbers them. A number that needs more than 32 bits is no request word (R45: one length; log 21). -/
def decodeTableWord (nbits w : Nat) : Option Instr :=
  let v := w % 2 ^ nbits
  if v < 2 ^ 32 then (decode (BitVec.ofNat 32 v)).toOption else none

/-- The request word that carries a call `recover_count(polynomial_index, observed_bits)` (R54): an index outside 0..255 is
presented as 255, and `observed_bits` is reduced modulo 2^24. -/
def callRequest (polynomialIndex : Int) (observedBits : Nat) : Request :=
  let idx := if 0 ≤ polynomialIndex ∧ polynomialIndex ≤ 255 then BitVec.ofNat 8 polynomialIndex.toNat else 255#8
  encode (.recover idx (BitVec.ofNat 24 observedBits))

/-- The word of one listing line `RECOVER <p>, <obs>` (R55): `req = (p << 24) | (obs & 0xFFFFFF)`. -/
def assemble (p : BitVec 8) (obs : Nat) : Request :=
  (p.setWidth 32 <<< 24) ||| (BitVec.ofNat 32 obs &&& 0xFFFFFF#32)

end Sys2Proof
end

