-- ==== Sys2Proof/Config.lean ====
section
/-! DEFINITION. What is fixed for a machine: the constants of spec/00_scope.md R4 and R5, the build parameters (the two ROMs,
`CKPT_BIAS`, `ITER_CAP`), and the values the spec leaves open, each an opaque constant with no body. -/

namespace Sys2Proof

/-- `S`, the distance between neighbouring checkpoints (R5, decision D1). -/
abbrev ckptSpacing : Nat := 8192

/-- `SEED`, the canonical starting Register State (R4). -/
abbrev seed : RegState := 1#17

/-- `ERR_RESULT`, the value of RESULT when STATUS is not OK (R5, decision D8). -/
abbrev errResult : Count := 0xFFFFFFFF#32

/-- The greatest admissible finite `ITER_CAP` (R5, decision D3). -/
abbrev iterCapMax : Nat := 2 ^ 31

/-- What is fixed when a machine is built: "configuration: they are arguments of the step function, never written, and the
same for every engine instance" (R13). The operational rules are total for every value of it (R36, R84). -/
structure Build where
  /-- POLY ROM: 4 words of 21 bits, addressed by the polynomial index (R31). -/
  poly : Vector TapMask 4
  /-- CKPT ROM: 64 words of 17 bits, addressed by `16*p + k` (R32). -/
  ckpt : Vector RegState 64
  /-- `CKPT_BIAS`, 1 by decision D2; 0 is the other admissible value (R5). -/
  ckptBias : Fin 2
  /-- `ITER_CAP`: `none` is the spec's `NONE` (R5, decision D3). -/
  iterCap : Option Nat
  deriving DecidableEq, Repr

/-- `ITER_CAP` is `NONE` or a natural number with `S <= ITER_CAP <= 2^31` (R5). -/
abbrev Build.CapAdmissible (b : Build) : Prop :=
  match b.iterCap with
  | none => True
  | some c => ckptSpacing ≤ c ∧ c ≤ iterCapMax

namespace Config

/-- OPEN (R34, decision D18; log 2): the tap masks of the machine. -/
opaque poly : Vector TapMask 4

/-- OPEN (R5, R35; log 2): the checkpoint words of the machine. -/
opaque ckpt : Vector RegState 64

/-- OPEN (decision D3; log 3): `ITER_CAP - S` of the machine, `none` for `ITER_CAP = NONE`. Its type holds exactly the
admissible caps: 2^31 - 8192 + 1 of them. -/
opaque capMargin : Option (Fin 2147475457)

/-- OPEN (decision D16; log 4): `N_ENGINES - 1` of the machine. -/
opaque extraEngines : Nat

/-- `ITER_CAP` of the machine: PDB's "period/16 + margin" (R5, R93). -/
def iterCap : Option Nat := capMargin.map fun m => ckptSpacing + m.val

/-- The build of the machine at reset; `CKPT_BIAS = 1` (R5, D2; log 23). -/
def build : Build where
  poly := poly
  ckpt := ckpt
  ckptBias := 1
  iterCap := iterCap

/-- `N_ENGINES >= 1` (R5). -/
def nEngines : Nat := extraEngines + 1

/-- FREE VALUE (R136, U6; log 8, 10): `SEL` of engine `id` at its `n`-th draw. -/
opaque freeSel : (id n : Nat) → PolyIndex

/-- FREE VALUE (R136, U6; log 8, 10): `BUF` of engine `id` at its `n`-th draw. -/
opaque freeBuf : (id n : Nat) → RegState

/-- FREE VALUE (R136, U6; log 8, 10): `CNT` of engine `id` at its `n`-th draw. -/
opaque freeCnt : (id n : Nat) → Count

/-- FREE VALUE (R91, R136, U6, U7; log 8, 9, 10): `RESULT` of engine `id` at its `n`-th draw. -/
opaque freeResult : (id n : Nat) → Count

/-- FREE VALUE (R91, R136, U6, U7; log 8, 9, 10): `STATUS` of engine `id` at its `n`-th draw. -/
opaque freeStatus : (id n : Nat) → StatusCode

end Config

end Sys2Proof
end

