-- ==== Sys2Proof/Machine/State.lean ====
section
/-! DEFINITION. The machine's state (spec/10_state.md R13 to R27), the reasons a step can stop, and the state after reset
(spec/70_reset_and_hazards.md R136). -/

namespace Sys2Proof.Machine

/-- The sequencer state (R14): it takes the place of a program counter. Code 3 of the 2-bit register is written by no rule and
is not representable (U8; log 11). -/
inductive Phase where
  /-- IDLE = 0: no request accepted since reset. -/
  | idle
  /-- RUN = 1: a request is in flight. -/
  | run
  /-- DONE = 2: the last request has ended; RESULT and STATUS are valid. -/
  | done
  deriving DecidableEq, Repr

/-- How a request can end (R19, R115). -/
inductive Status where
  /-- OK = 0: the seed was reached, directly or by a shortcut. -/
  | ok
  /-- BAD_INDEX = 1: the index was outside 0..3 (R116). -/
  | badIndex
  /-- NOT_FOUND = 2: the iteration cap was reached (R117). -/
  | notFound
  deriving DecidableEq, Repr

/-- One engine instance: the six state elements of R13, and the model's own draw counter. -/
structure Engine where
  /-- `phase` (R14). -/
  phase : Phase
  /-- `SEL`: the polynomial index of the request in flight (R15). -/
  sel : PolyIndex
  /-- `BUF`: the working buffer (R16). -/
  buf : RegState
  /-- `CNT`: the step counter (R17). -/
  cnt : Count
  /-- `RESULT` (R18). -/
  result : Count
  /-- `STATUS` (R19). -/
  status : StatusCode
  /-- The MODEL's own: how many free values this engine has drawn (log 10). -/
  draws : Nat
  deriving DecidableEq, Repr

/-- One row of the host's program: which engine takes the step and what its input ports show (R20, R126; log 5). -/
structure Turn where
  /-- The engine that takes the step. -/
  engine : Nat
  /-- `rst`: reset request. -/
  rst : Bool
  /-- `start`: request strobe. -/
  start : Bool
  /-- `req`: the request word. -/
  req : Request
  deriving DecidableEq, Repr

/-- The machine: the build (log 1), the engines (R126), and what the host and the scheduler will present (log 5). -/
structure State where
  /-- The two ROMs and the parameters: arguments of the step, never written (R13, R37). -/
  build : Build
  /-- The engine instances, numbered from 0; `N_ENGINES` is their number (R126). -/
  engines : List Engine
  /-- The MODEL's own: the engine that takes, or last took, an engine step (log 6). -/
  cur : Nat
  /-- The MODEL's own: the input rows still to come, one per engine step (log 5). -/
  schedule : List Turn
  deriving DecidableEq, Repr

/-- Why a step stops with a fault. -/
inductive Fault where
  /-- Raised by any step whose turn names an engine that is not there. The spec has no such engine, hence no such step. Safe: the
  model says nothing about it (log 12). -/
  | noSuchEngine (id : Nat)
  deriving DecidableEq, Repr

/-- Why a step has no meaning. -/
inductive Refusal where
  /-- Raised by an arm of `exec` whose instruction has no meaning yet; no arm raises it. Safe. -/
  | notModelled (mnemonic : String)
  deriving DecidableEq, Repr

/-- An engine right after reset (R136): `phase = IDLE`; the spec leaves every other element unspecified, and the value 0 is the
model's DESIGN CHOICE (log 7), as is the draw counter's 0 (log 10). -/
def Engine.reset : Engine where
  phase := .idle
  sel := 0
  buf := 0
  cnt := 0
  result := 0
  status := 0
  draws := 0

/-- The reset state of a machine of `n` engines built as `b`: nothing is scheduled (log 14). -/
def State.resetWith (b : Build) (n : Nat) : State where
  build := b
  engines := List.replicate n Engine.reset
  cur := 0
  schedule := []

/-- The machine right after reset (R136, R137), its build and its number of engines left open (log 1 to 4). -/
def State.reset : State := State.resetWith Config.build Config.nEngines

end Sys2Proof.Machine
end

