-- ==== Sys2Proof/Machine/Operands.lean ====
section
/-! DEFINITION. The operands of RECOVER: what the acceptance step takes from `IDX` and `OBS` (spec/30_encoding.md R46, R47). -/

namespace Sys2Proof.Machine

/-- A legal index is 0..3 (R46, R48). -/
def legalIndex (idx : BitVec 8) : Bool := decide (idx ≤ 3#8)

/-- `SEL <- IDX[1:0]` (R46, R91). -/
def selectorOf (idx : BitVec 8) : PolyIndex := idx.extractLsb' 0 2

/-- PDB's first mask: the low 21 working bits, `w = zext_21(OBS[20:0])` (R47). -/
def workingBits (obs : BitVec 24) : BitVec 21 := obs.extractLsb' 0 21

/-- `BUF <- OBS[16:0]`, as PDB's two masks in turn: the 21 working bits, then the 17-bit view `w[16:0]` (R47). -/
def loadBuffer (obs : BitVec 24) : RegState := (workingBits obs).extractLsb' 0 17

end Sys2Proof.Machine
end

