-- ==== Sys2Proof/Machine/Ops.lean ====
section
/-! DEFINITION. The shared operations: the ROM reads (spec/20_memory.md), the reverse step and the forward transition
(spec/40_reverse_step.md), the offset adder (spec/41_checkpoint.md), the ends of a request, `raise` among them
(spec/60_exceptions.md R120), the reset step (spec/70_reset_and_hazards.md R136), and the turns of the engines. -/

namespace Sys2Proof.Machine

/-- `PolyRead(p)`: the word `POLY[p]`, all 21 bits at once (R31). -/
def polyRead (b : Build) (p : PolyIndex) : TapMask := b.poly[p.toNat]'p.isLt

/-- `CkptRead(p, k)`: the word `CKPT[p][k]`, at address `a[5:0] = {p, k}` (R32). -/
def ckptRead (b : Build) (p : PolyIndex) (k : EntryIndex) : RegState := b.ckpt[(p ++ k).toNat]'(p ++ k).isLt

/-- `parity(v)`: the exclusive or of all bits of `v` (R8). -/
def parity {w : Nat} (v : BitVec w) : Bool := ((List.range w).map v.getLsbD).foldr xor false

/-- Sub-step a: `fb = B[0]` (R61). -/
def feedbackBit (B : RegState) : Bool := B.getLsbD 0

/-- Sub-step b: `sh = {1'b0, B[16:1]}` (R62). -/
def shiftDown (B : RegState) : RegState := 0#1 ++ B.extractLsb' 1 16

/-- Sub-step c: `masked = sh & M[16:0]` (R63). -/
def maskTaps (M : TapMask) (sh : RegState) : RegState := sh &&& M.extractLsb' 0 17

/-- Sub-step e: `rbit = par ^ fb` (R65); sub-step d is `parity` (R64). -/
def reinsertBit (par fb : Bool) : Bool := xor par fb

/-- Sub-step f: `nxt = {rbit, sh[15:0]}` (R66). -/
def insertTop (rbit : Bool) (sh : RegState) : RegState := BitVec.ofBool rbit ++ sh.extractLsb' 0 16

/-- RSTEP, `Rev` under the tap mask `M`: sub-steps a to f (R60, R67). -/
def revStep (M : TapMask) (B : RegState) : RegState :=
  let fb := feedbackBit B
  let sh := shiftDown B
  let masked := maskTaps M sh
  let par := parity masked
  let rbit := reinsertBit par fb
  insertTop rbit sh

/-- `Fwd` under the tap mask `M`: a specification function that the block never performs (R69). -/
def fwdStep (M : TapMask) (C : RegState) : RegState :=
  C.extractLsb' 0 16 ++ BitVec.ofBool (xor (C.getLsbD 16) (parity (C.extractLsb' 0 16 &&& M.extractLsb' 0 16)))

/-- `OFFSET(k) = k*S - CKPT_BIAS` (R79). -/
def offset (b : Build) (k : EntryIndex) : Nat := k.toNat * ckptSpacing - b.ckptBias.val

/-- Step g: `CNT + 1`, modulo 2^32 (R94, R107). -/
def countIncrement (cnt : Count) : Count := cnt + 1#32

/-- The adjusted count of a hit on entry `k`: `(CNT + 1) + OFFSET(k)`, modulo 2^32 (R80, R107). -/
def shortcutCount (b : Build) (k : EntryIndex) (cnt : Count) : Count :=
  countIncrement cnt + BitVec.ofNat 32 (offset b k)

/-- The codes of `STATUS`: OK = 0, BAD_INDEX = 1, NOT_FOUND = 2 (R19, R51). -/
def Status.code : Status → StatusCode
  | .ok => 0#2
  | .badIndex => 1#2
  | .notFound => 2#2

/-- The codes of `phase`: IDLE = 0, RUN = 1, DONE = 2 (R14, R52). -/
def Phase.code : Phase → BitVec 2
  | .idle => 0#2
  | .run => 1#2
  | .done => 2#2

/-- `raise`, the ONE abnormal end (R8, R120): `STATUS <- code; RESULT <- ERR_RESULT; phase <- DONE`, and nothing else. There is
no return from it: the abnormal end is the return (R122). -/
def raise (st : Status) (e : Engine) : Engine :=
  { e with status := st.code, result := errResult, phase := .done }

/-- RETIRE: `RESULT <- CNT; STATUS <- OK; phase <- DONE` (R92). -/
def retire (e : Engine) : Engine := { e with status := Status.ok.code, result := e.cnt, phase := .done }

/-- LOAD, the legal branch of ACCEPT (R91): "SEL <- IDX[1:0]; BUF <- OBS[16:0]; CNT <- 0; phase <- RUN", while RESULT and STATUS
lose their value: each becomes a free value (R21, U7; log 9). -/
def load (id : Nat) (idx : BitVec 8) (obs : BitVec 24) (e : Engine) : Engine where
  phase := .run
  sel := selectorOf idx
  buf := loadBuffer obs
  cnt := 0#32
  result := Config.freeResult id e.draws
  status := Config.freeStatus id e.draws
  draws := e.draws + 1

/-- The reset step of one engine (R97, R136): `phase = IDLE`, every other element unspecified, "possibly different after each
reset": free values (log 8). -/
def resetEngine (id : Nat) (e : Engine) : Engine where
  phase := .idle
  sel := Config.freeSel id e.draws
  buf := Config.freeBuf id e.draws
  cnt := Config.freeCnt id e.draws
  result := Config.freeResult id e.draws
  status := Config.freeStatus id e.draws
  draws := e.draws + 1

/-- The state with engine `id` replaced: all a step of one engine can write (R23, R126). -/
def State.setEngine (s : State) (id : Nat) (e : Engine) : State := { s with engines := s.engines.set id e }

/-- The current engine takes a step that makes of it what `f` says, `f` being given the engine's number and the engine; every
other engine and both ROMs stay as they are (R37, R126). -/
def onCurrent (f : Nat → Engine → Engine) (s : State) : Host.Outcome State Fault Refusal :=
  match s.engines[s.cur]? with
  | some e => .next (s.setEngine s.cur (f s.cur e))
  | none => .fault (.noSuchEngine s.cur)

/-- The inputs of the next engine step: the first row of the schedule; with no row left, `rst = start = 0` and the engine
after the one that stepped last, in turn (log 5, 6). -/
def State.nextTurn (s : State) : Turn :=
  match s.schedule with
  | t :: _ => t
  | [] => { engine := (s.cur + 1) % s.engines.length, rst := false, start := false, req := 0#32 }

/-- The state in which the engine of turn `t` is about to step: its row is used up. -/
def State.beginTurn (s : State) (t : Turn) : State := { s with cur := t.engine, schedule := s.schedule.tail }

end Sys2Proof.Machine
end

