-- ==== Sys2Proof/Machine/Flags.lean ====
section
/-! DEFINITION. The block keeps no flags (spec/10_state.md R22); here stand the tests a run step makes: SEEDTEST and CKCMP
(spec/41_checkpoint.md R75 to R78), CAPTEST (spec/42_recover.md R93), and the outputs (spec/10_state.md R20, R21). -/

namespace Sys2Proof.Machine

/-- SEEDTEST: `seed_eq = (BUF = CkptRead(SEL, 0))` (R75). -/
def seedTest (b : Build) (sel : PolyIndex) (buf : RegState) : Bool := buf == ckptRead b sel 0#4

/-- The entries CKCMP compares with, in the order of its priority: 1..15 (R76, R78). -/
def comparedEntries : List EntryIndex := [1, 2, 3, 4, 5, 6, 7, 8, 9, 10, 11, 12, 13, 14, 15]

/-- CKCMP: `hit_k`, the least k in 1..15 with `v = CkptRead(SEL, k)`, and `none` for `hit = 0` (R76, R78). -/
def ckcmp (b : Build) (sel : PolyIndex) (v : RegState) : Option EntryIndex :=
  comparedEntries.find? fun k => v == ckptRead b sel k

/-- CAPTEST: `ITER_CAP != NONE` and `CNT >= ITER_CAP` (R93). -/
def capReached (b : Build) (cnt : Count) : Bool :=
  match b.iterCap with
  | none => false
  | some c => decide (c ≤ cnt.toNat)

/-- Output `ready`: 1 when `phase` is IDLE or DONE (R20, R52). -/
def ready (e : Engine) : Bool := e.phase != .run

/-- Output `done`: 1 when `phase` is DONE (R20, R52). -/
def done (e : Engine) : Bool := e.phase == .done

/-- Outputs `result` and `status`, the observation of one engine (R21): `if phase = DONE then some (RESULT, STATUS) else none`.
While `done = 0` they hold no value, and a read of them has no meaning. -/
def out (e : Engine) : Option (Count × StatusCode) :=
  match e.phase with
  | .done => some (e.result, e.status)
  | .idle => none
  | .run => none

end Sys2Proof.Machine
end

