-- ==== Sys2Proof/Machine/Recover.lean ====
section
/-! DEFINITION. RECOVER at the machine level: the engine step, one definition per rule of spec/42_recover.md R91 to R97. -/

namespace Sys2Proof.Machine

/-- ACCEPT: a request is taken, with its index tested before anything else (R91, R116, R119). -/
def accept (id : Nat) (idx : BitVec 8) (obs : BitVec 24) (e : Engine) : Engine :=
  if legalIndex idx then load id idx obs e else raise .badIndex e

/-- ITERATE: one pass of PDB's loop body, steps a to h (R94). -/
def iterate (b : Build) (e : Engine) : Engine :=
  let nxt := revStep (polyRead b e.sel) e.buf
  match ckcmp b e.sel nxt with
  | some k => { e with cnt := shortcutCount b k e.cnt, buf := ckptRead b e.sel 0#4 }
  | none => { e with cnt := countIncrement e.cnt, buf := nxt }

/-- The run step: the seed test, then the cap test, then an iteration (R92, R93, R94, R119). It reads no input (R96). -/
def runStep (b : Build) (e : Engine) : Engine :=
  if seedTest b e.sel e.buf then retire e
  else if capReached b e.cnt then raise .notFound e
  else iterate b e

/-- An engine step with `rst = start = 0`: a run step in RUN (R146), and nothing in IDLE and DONE (R95). -/
def quietEngine (b : Build) (e : Engine) : Engine :=
  match e.phase with
  | .run => runStep b e
  | .idle => e
  | .done => e

/-- An engine step with `rst = 0`, `start = 1` and the request (`idx`, `obs`): accepted in IDLE and DONE (R91); not read in RUN,
where the request is lost (R96, R140). -/
def presentRequest (b : Build) (id : Nat) (idx : BitVec 8) (obs : BitVec 24) (e : Engine) : Engine :=
  match e.phase with
  | .run => runStep b e
  | .idle => accept id idx obs e
  | .done => accept id idx obs e

/-- An engine step with `rst = 0`, `start = 1` and a word that is no legal RECOVER: BAD_INDEX at acceptance (R48, R91, R116), and
not read in RUN (R96). -/
def presentIllegal (b : Build) (e : Engine) : Engine :=
  match e.phase with
  | .run => runStep b e
  | .idle => raise .badIndex e
  | .done => raise .badIndex e

/-- RECOVER: the engine step in which the request is presented to the current engine (R90, R91, R96). The loop of R90 is the run
steps that follow, one pass per engine step (R10, R92 to R94; log 13). -/
def execRecover (idx : BitVec 8) (obs : BitVec 24) (s : State) : Host.Outcome State Fault Refusal :=
  onCurrent (fun id e => presentRequest s.build id idx obs e) s

/-- An illegal request word is presented to the current engine (R48, R57). -/
def rejectRequest (s : State) : Host.Outcome State Fault Refusal :=
  onCurrent (fun _ e => presentIllegal s.build e) s

/-- The current engine steps with `rst = start = 0` (R92 to R95). -/
def quietStep (s : State) : Host.Outcome State Fault Refusal :=
  onCurrent (fun _ e => quietEngine s.build e) s

/-- The current engine steps with `rst = 1`: reset has priority over everything (R97, R135). -/
def resetStep (s : State) : Host.Outcome State Fault Refusal :=
  onCurrent resetEngine s

end Sys2Proof.Machine
end

