-- ==== Sys2Proof/Machine/Sequencer.lean ====
section
/-! DEFINITION. One engine step of the engine whose turn it is: which of the rules of spec/42_recover.md applies. -/

namespace Sys2Proof.Machine

/-- The engine step of turn `t`, its engine being the current one: reset first (R97); then, with `start = 1`, the request that
`req` carries, legal or not (R91, R96); then a step that reads no request (R92 to R95). -/
def takeTurn (t : Turn) (s : State) : Host.Outcome State Fault Refusal :=
  if t.rst then resetStep s
  else if t.start then
    match decode t.req with
    | .ok i => exec i s
    | .error _ => rejectRequest s
  else quietStep s

/-- The row that presents the word `w` to engine `id`. -/
def requestTurn (id : Nat) (w : Request) : Turn := { engine := id, rst := false, start := true, req := w }

/-- An engine that accepts what it is given: one in RUN is taken out of it (log 15). -/
def makeReady (e : Engine) : Engine :=
  match e.phase with
  | .run => { e with phase := .idle }
  | .idle => e
  | .done => e

/-- The word of the low `nbits` bits of `w`, every other bit 0. -/
def tableWord (nbits w : Nat) : Request := BitVec.ofNat 32 (w % 2 ^ nbits)

end Sys2Proof.Machine
end

