-- ==== Sys2Proof/Machine/Step.lean ====
section
/-! DEFINITION. The machine's step: one engine step of the engine whose turn it is (spec/42_recover.md section 2,
spec/60_exceptions.md R126). -/

namespace Sys2Proof.Machine

/-- One step: the inputs of the next turn are taken from the schedule, and its engine steps. -/
def step (s : State) : Host.Outcome State Fault Refusal :=
  takeTurn s.nextTurn (s.beginTurn s.nextTurn)

/-- `s` with the request word of the table's bits as the next row of the schedule, presented to the current engine, which is made
ready for it (log 14, 15). The rows already there come after it. -/
def State.withFetchWord (s : State) (nbits w : Nat) : State :=
  { s with
    engines := s.engines.modify s.cur makeReady
    schedule := requestTurn s.cur (tableWord nbits w) :: s.schedule }

end Sys2Proof.Machine
end

