-- ==== Sys2Proof/Machine/CallLevel.lean ====
section
/-! DEFINITION. The call level (spec/00_scope.md R10, spec/42_recover.md R98): `recover_count` as a function on naturals, the
pseudocode of R90 run to its `stop` or `raise`. It is written beside the machine, not from it: that the two agree is a claim. -/

namespace Sys2Proof.Machine

/-- The value of a call (R98): `OK(c)`, `BAD_INDEX` or `NOT_FOUND`. -/
inductive CallResult where
  /-- `OK(c)`. -/
  | ok (count : Count)
  /-- `BAD_INDEX`. -/
  | badIndex
  /-- `NOT_FOUND`. -/
  | notFound
  deriving DecidableEq, Repr

/-- The pair (RESULT, STATUS) that stands for a call's value (R51, R98). -/
def CallResult.response : CallResult → Count × StatusCode
  | .ok c => (c, 0#2)
  | .badIndex => (errResult, 1#2)
  | .notFound => (errResult, 2#2)

/-- The loop of R90, `n` iterations having been made: the value of the call with the number of iterations it took, or `none`
when `fuel` passes do not reach `stop` or `raise`. -/
def recoverLoop (b : Build) (sel : PolyIndex) : (fuel : Nat) → RegState → Count → (n : Nat) → Option (CallResult × Nat)
  | 0, _, _, _ => none
  | fuel + 1, buf, cnt, n =>
    if buf = ckptRead b sel 0#4 then some (.ok cnt, n)
    else if capReached b cnt then some (.notFound, n)
    else
      let nxt := revStep (polyRead b sel) buf
      match ckcmp b sel nxt with
      | some k => recoverLoop b sel fuel (ckptRead b sel 0#4) (cnt + 1#32 + BitVec.ofNat 32 (offset b k)) (n + 1)
      | none => recoverLoop b sel fuel nxt (cnt + 1#32) (n + 1)

/-- `recover_count(idx, obs)` on naturals (R98), with the number of iterations. The call has a value iff some fuel gives one; with
`ITER_CAP = NONE` it may have none (R105). -/
def recoverCount (b : Build) (fuel idx obs : Nat) : Option (CallResult × Nat) :=
  if 3 < idx then some (.badIndex, 0)
  else recoverLoop b (BitVec.ofNat 2 idx) fuel (BitVec.ofNat 17 obs) 0#32 0

end Sys2Proof.Machine
end

