-- ==== Sys2Proof/Machine/WideBuffer.lean ====
section
/-! DEFINITION. The implementation of spec/40_reverse_step.md R73 that keeps PDB's 21 working bits in its buffer. The machine does not
use it: that it gives the same responses is a claim (conflict C2). -/

namespace Sys2Proof.Machine

/-- The 17-bit view of a 21-bit buffer (R25, R47). -/
def lowView (W : BitVec 21) : RegState := W.extractLsb' 0 17

/-- PDB's steps a to f on a 21-bit buffer: the shift takes bits 16:1 and clears everything from bit 16 up (R73 (ii)), the mask is
applied at its full width, `masked = zext_21(sh) & M` (R63), and the bit is inserted at bit 16 (R66). -/
def wideRevStep (M : TapMask) (W : BitVec 21) : BitVec 21 :=
  let sh := (W &&& 0x1FFFE#21) >>> 1
  let rbit := reinsertBit (parity (sh &&& M)) (W.getLsbD 0)
  (sh &&& 0x0FFFF#21) ||| ((BitVec.ofBool rbit).setWidth 21 <<< 16)

/-- The loop of R90 over a 21-bit buffer: the count and whether the loop ended at the seed (`true`) or at the cap (`false`); `none`
when `fuel` passes do not end it. Comparisons are on the low 17 bits (R73 (i)). -/
def wideLoop (b : Build) (sel : PolyIndex) : (fuel : Nat) → BitVec 21 → Count → Option (Count × Bool)
  | 0, _, _ => none
  | fuel + 1, W, cnt =>
    if seedTest b sel (lowView W) then some (cnt, true)
    else if capReached b cnt then some (cnt, false)
    else
      let nxt := wideRevStep (polyRead b sel) W
      match ckcmp b sel (lowView nxt) with
      | some k => wideLoop b sel fuel ((ckptRead b sel 0#4).setWidth 21) (shortcutCount b k cnt)
      | none => wideLoop b sel fuel nxt (countIncrement cnt)

end Sys2Proof.Machine
end

