-- ==== Sys2Proof/Safety.lean ====
section
/-! DEFINITION. The terms the statements use: one engine's step and run, what it is for a request to be answered, the well-formed ROM
image and the distance function (spec/20_memory.md R36, spec/41_checkpoint.md R82), and the machine's invariant. -/

namespace Sys2Proof.Machine

/-! ## One engine by itself -/

/-- The engine step of engine `id` with the inputs of row `t`: the rule of R91 to R97 that applies. That the machine's step does
this to the engine whose turn it is, is a claim. -/
def engineStep (b : Build) (id : Nat) (t : Turn) (e : Engine) : Engine :=
  if t.rst then resetEngine id e
  else if t.start then
    match decode t.req with
    | .ok (.recover idx obs) => presentRequest b id idx obs e
    | .error _ => presentIllegal b e
  else quietEngine b e

/-- Engine `id` stepping once for each row of `ts`. -/
def engineRun (b : Build) (id : Nat) (ts : List Turn) (e : Engine) : Engine :=
  ts.foldl (fun e t => engineStep b id t e) e

/-- No row of `ts` resets the engine; `start` and `req` are anything. -/
abbrev NoReset (ts : List Turn) : Prop := ∀ t ∈ ts, t.rst = false

/-- Engine `id` after the word `w` was presented to it and it stepped once for each row of `ts`. -/
def serve (b : Build) (id : Nat) (w : Request) (ts : List Turn) (e : Engine) : Engine :=
  engineRun b id ts (engineStep b id (requestTurn id w) e)

/-- The request `w`, presented to engine `id` in state `e`, is accepted and answered with `r` after exactly `n` iterations: "after
exactly `n + 1` run steps following the acceptance step" (R98), whatever the host shows on `start` and `req` meanwhile. -/
def AnswersAfter (b : Build) (id : Nat) (w : Request) (n : Nat) (r : Count × StatusCode) (e : Engine) : Prop :=
  ∀ ts : List Turn, NoReset ts →
    (ts.length ≤ n → (serve b id w ts e).phase = .run) ∧
    (ts.length = n + 1 → out (serve b id w ts e) = some r)

/-- The request `w` is accepted and never answered: a hang (R118), an infinite execution in RUN as long as no reset comes. -/
def NeverAnswers (b : Build) (id : Nat) (w : Request) (e : Engine) : Prop :=
  ∀ ts : List Turn, NoReset ts → (serve b id w ts e).phase = .run

/-! ## One step of the machine -/

/-- The next step is that of engine `t.engine`, whose state is `e`, with the inputs of `t`. -/
abbrev Scheduled (s : State) (t : Turn) (e : Engine) : Prop :=
  s.nextTurn = t ∧ s.engines[t.engine]? = some e

/-- The state after the turn `t` that left its engine in the state `e`: nothing but that engine and the rows to come differ. -/
def State.afterTurn (s : State) (t : Turn) (e : Engine) : State :=
  (s.beginTurn t).setEngine t.engine e

/-- `n` steps of the machine, stopping at the first fault or refusal. -/
def runSteps : (n : Nat) → State → Host.Outcome State Fault Refusal
  | 0, s => .next s
  | n + 1, s =>
    match step s with
    | .next s' => runSteps n s'
    | .fault r => .fault r
    | .refused r => .refused r

/-! ## ROM images, distance, reachability -/

/-- The tap mask of polynomial `p` gives the forward sequence from the seed the period `P`: the least n >= 1 with
`Fwd_p^n(SEED) = SEED` (R5). -/
def IsPeriod (M : TapMask) (P : Nat) : Prop :=
  1 ≤ P ∧ (fwdStep M)^[P] seed = seed ∧ ∀ n, 1 ≤ n → n < P → (fwdStep M)^[n] seed ≠ seed

/-- The ROM image is well formed, `WF_ROM` (R36): its three clauses, the second being the content law R35. -/
def WFRom (b : Build) : Prop :=
  ∀ p : PolyIndex,
    ckptRead b p 0#4 = seed ∧
    (∀ k : EntryIndex, k ≠ 0#4 → ckptRead b p k = (fwdStep (polyRead b p))^[offset b k] seed) ∧
    ∃ P, IsPeriod (polyRead b p) P ∧ 15 * ckptSpacing - b.ckptBias.val < P ∧ P ≤ 16 * ckptSpacing

/-- `x` is reachable under the tap mask `M` (R8, R10's glossary): `x = Fwd^d(SEED)` for some d. -/
def Reachable (M : TapMask) (x : RegState) : Prop := ∃ d, (fwdStep M)^[d] seed = x

/-- `dist(x) = d`: `d` is the least number of forward steps from the seed to `x` (R82). -/
def IsDist (M : TapMask) (x : RegState) (d : Nat) : Prop :=
  (fwdStep M)^[d] seed = x ∧ ∀ d' < d, (fwdStep M)^[d'] seed ≠ x

/-- The cycle of `Rev` through `x` holds no ROM entry of polynomial `p` (R104, R105). -/
def OffCycle (b : Build) (p : PolyIndex) (x : RegState) : Prop :=
  ∀ (j : Nat) (k : EntryIndex), (revStep (polyRead b p))^[j] x ≠ ckptRead b p k

/-! ## The invariant -/

/-- What the rules say of a request in flight: under a finite cap `CNT` counts the iterations made, at most `ITER_CAP`, unless a
shortcut has put the seed entry into `BUF` (R93, R107). -/
def RunInv (b : Build) (e : Engine) : Prop :=
  ∀ c, b.iterCap = some c →
    e.cnt.toNat ≤ c ∨ (e.buf = ckptRead b e.sel 0#4 ∧ e.cnt.toNat ≤ c + offset b 15#4)

/-- What the rules say of a response (R51, R80, R93, R101, R115): its status is one of the three codes; an error carries
`ERR_RESULT`; OK leaves the seed entry in `BUF`, and under a finite cap its count is at most `ITER_CAP + OFFSET(15)`, so that it is
not `ERR_RESULT`; NOT_FOUND comes after exactly `ITER_CAP` iterations of a finite cap. -/
def DoneInv (b : Build) (e : Engine) : Prop :=
  (e.status = Status.ok.code ∧ e.result = e.cnt ∧ e.buf = ckptRead b e.sel 0#4 ∧
    ∀ c, b.iterCap = some c → e.result.toNat ≤ c + offset b 15#4 ∧ e.result ≠ errResult) ∨
  (e.status = Status.badIndex.code ∧ e.result = errResult) ∨
  (e.status = Status.notFound.code ∧ e.result = errResult ∧ b.iterCap = some e.cnt.toNat)

/-- An engine's invariant; in IDLE nothing but the phase is known (R136). -/
def EngineInv (b : Build) (e : Engine) : Prop :=
  (e.phase = .run → RunInv b e) ∧ (e.phase = .done → DoneInv b e)

/-- The machine's invariant: there is an engine (R5), the cap is admissible (R5), and every engine has its invariant. -/
def State.Inv (s : State) : Prop :=
  s.engines ≠ [] ∧ s.build.CapAdmissible ∧ ∀ e ∈ s.engines, EngineInv s.build e

end Sys2Proof.Machine
end

