-- ==== Sys2Proof/Certificates/Slice0/Obligations.lean ====
section
/-! DEFINITION. The statements for the provers, from the numbered rules of spec/. -/

open Sys2Proof Sys2Proof.Machine

/-! ## Decoding and encoding (spec/30_encoding.md) -/

/-- Decode and encode agree, in both directions, and the decoder refuses exactly the words that miss the table's one row
(R48, R50, R57). -/
def Obligations.DecodeEncodeAgree : Prop :=
  (∀ i : Instr, i.wellFormed = true → decode (encode i) = .ok i) ∧
  (∀ (w : Request) (i : Instr), decode w = .ok i → i.wellFormed = true ∧ encode i = w) ∧
  (∀ w : Request, (∃ i, decode w = .ok i) ↔ w &&& 0xFC000000#32 = 0x00000000#32) ∧
  (∀ w : Request, w &&& 0xFC000000#32 ≠ 0x00000000#32 → decode w = .error (.badIndex (w.extractLsb' 24 8)))

/-- A word written out field by field from the request format (R45); four words of spec/95_test_vectors.md section 4, two legal and
two illegal; and R91's example word, which is the first word again, read as a table word. -/
def Obligations.DecodeOfWrittenWords : Prop :=
  decode 0b00000010_111_1111_00000000000001101#32 = .ok (.recover 2#8 0xFE000D#24) ∧
  decode 0x0201A406#32 = .ok (.recover 2#8 0x01A406#24) ∧
  decode 0x03FFFFFF#32 = .ok (.recover 3#8 0xFFFFFF#24) ∧
  decode 0x04000001#32 = .error (.badIndex 4#8) ∧
  decode 0x80000001#32 = .error (.badIndex 128#8) ∧
  decodeTableWord 32 0x02FE000D = some (.recover 2#8 0xFE000D#24)

/-- The binding of a call to a request word (R54) and of a listing line to its word (R55): an index in 0..3 and `observed_bits`
reach the decoder as they are, modulo 2^24; every other integer index ends in the decoder's refusal and aliases onto no legal one. -/
def Obligations.CallRequestBinding : Prop :=
  (∀ (p obs : Nat), p ≤ 3 →
    decode (callRequest p obs) = .ok (.recover (BitVec.ofNat 8 p) (BitVec.ofNat 24 obs))) ∧
  (∀ (p : Int) (obs : Nat), 3 < p → p ≤ 255 →
    decode (callRequest p obs) = .error (.badIndex (BitVec.ofNat 8 p.toNat))) ∧
  (∀ (p : Int) (obs : Nat), (p < 0 ∨ 255 < p) → decode (callRequest p obs) = .error (.badIndex 255#8)) ∧
  (∀ (p : BitVec 8) (obs : Nat), assemble p obs = encode (.recover p (BitVec.ofNat 24 obs)))

/-- Bits 23:17 of a request change nothing (R47, R121): two words that differ only there make the same step of the machine,
whatever its state and whichever other inputs the row holds. -/
def Obligations.RequestHighBitsIgnored : Prop :=
  ∀ (s : State) (t : Turn) (rest : List Turn) (w w' : Request), w &&& 0xFF01FFFF#32 = w' &&& 0xFF01FFFF#32 →
    step { s with schedule := { t with req := w } :: rest } = step { s with schedule := { t with req := w' } :: rest }

/-! ## The reverse step (spec/40_reverse_step.md) -/

/-- The closed form of the reverse step: bit 16 is `B[0] ^ parity(B[16:1] & POLY[p][15:0])`, bit i is `B[i+1]` (R67). -/
def Obligations.ReverseStepClosedForm : Prop :=
  ∀ (b : Build) (p : PolyIndex) (B : RegState),
    revStep (polyRead b p) B =
      BitVec.ofBool (xor (B.getLsbD 0) (parity (B.extractLsb' 1 16 &&& (polyRead b p).extractLsb' 0 16)))
        ++ B.extractLsb' 1 16 ∧
    ∀ i < 16, (revStep (polyRead b p) B).getLsbD i = B.getLsbD (i + 1)

/-- The inverse law (R70): the two transitions undo each other on all 17-bit values, and both are bijections. -/
def Obligations.ReverseAndForwardAreInverse : Prop :=
  ∀ M : TapMask,
    (∀ x, revStep M (fwdStep M x) = x) ∧ (∀ x, fwdStep M (revStep M x) = x) ∧
    Function.Bijective (revStep M) ∧ Function.Bijective (fwdStep M)

/-- The all-zero buffer is a fixed point of both transitions, no number of steps leads from it to the seed or back, and a period is
at most 2^17 - 1 (R71). -/
def Obligations.ZeroBufferIsFixedPoint : Prop :=
  ∀ M : TapMask,
    revStep M 0 = 0 ∧ fwdStep M 0 = 0 ∧ ¬ Reachable M 0 ∧ (∀ n, (revStep M)^[n] 0 ≠ seed) ∧
    ∀ P, IsPeriod M P → P ≤ 2 ^ 17 - 1

/-- Only bits 15:0 of a tap mask have an effect (R72): on the transitions, and on the machine, which takes the same step under two
ROM images that differ only in bits 20:16. The reverse of the seed is the same for every mask. -/
def Obligations.EffectiveTaps : Prop :=
  (∀ (M M' : TapMask) (x : RegState), M.extractLsb' 0 16 = M'.extractLsb' 0 16 →
    revStep M x = revStep M' x ∧ fwdStep M x = fwdStep M' x) ∧
  (∀ M : TapMask, revStep M seed = 0x10000#17) ∧
  (∀ (s s' : State) (b' : Build), b'.ckpt = s.build.ckpt → b'.ckptBias = s.build.ckptBias → b'.iterCap = s.build.iterCap →
    (∀ p, (polyRead b' p).extractLsb' 0 16 = (polyRead s.build p).extractLsb' 0 16) →
    step s = .next s' → step { s with build := b' } = .next { s' with build := b' })

/-- A buffer that keeps PDB's 21 working bits gives the same count and the same end for every request (R73). -/
def Obligations.WideBufferIsEquivalent : Prop :=
  (∀ (M : TapMask) (W : BitVec 21),
    lowView (wideRevStep M W) = revStep M (lowView W) ∧ wideRevStep M W &&& 0x1E0000#21 = 0#21) ∧
  ∀ (b : Build) (p : PolyIndex) (obs : BitVec 24) (fuel n : Nat) (c : Count),
    (recoverLoop b p fuel (loadBuffer obs) 0#32 0 = some (.ok c, n) →
      wideLoop b p fuel (workingBits obs) 0#32 = some (c, true)) ∧
    (recoverLoop b p fuel (loadBuffer obs) 0#32 0 = some (.notFound, n) →
      ∃ c', wideLoop b p fuel (workingBits obs) 0#32 = some (c', false)) ∧
    (recoverLoop b p fuel (loadBuffer obs) 0#32 0 = none → wideLoop b p fuel (workingBits obs) 0#32 = none)

/-! ## The checkpoint accelerator (spec/41_checkpoint.md) -/

/-- CKCMP gives the least matching entry of 1..15, and no hit exactly when none of them matches (R76, R78). -/
def Obligations.CheckpointCompareIsLeastMatch : Prop :=
  ∀ (b : Build) (p : PolyIndex) (v : RegState),
    (∀ k : EntryIndex, ckcmp b p v = some k ↔
      k ≠ 0#4 ∧ v = ckptRead b p k ∧ ∀ j : EntryIndex, j ≠ 0#4 → j < k → v ≠ ckptRead b p j) ∧
    (ckcmp b p v = none ↔ ∀ k : EntryIndex, k ≠ 0#4 → v ≠ ckptRead b p k)

/-- The offset constants (R79): `k*S - CKPT_BIAS`, and their values under both admissible biases. -/
def Obligations.OffsetConstants : Prop :=
  ∀ b : Build,
    (∀ k : EntryIndex, k ≠ 0#4 → (offset b k : Int) = k.toNat * 8192 - b.ckptBias.val) ∧
    (b.ckptBias = 1 → [1, 2, 3, 4, 5, 6, 7, 8, 9, 10, 11, 12, 13, 14, 15].map (offset b) =
      [8191, 16383, 24575, 32767, 40959, 49151, 57343, 65535, 73727, 81919, 90111, 98303, 106495, 114687, 122879]) ∧
    (b.ckptBias = 0 → [1, 2, 3, 4, 5, 6, 7, 8, 9, 10, 11, 12, 13, 14, 15].map (offset b) =
      [8192, 16384, 24576, 32768, 40960, 49152, 57344, 65536, 73728, 81920, 90112, 98304, 106496, 114688, 122880])

/-- Under WF_ROM the sixteen entries of a polynomial are pairwise different, so that a value that hits in CKCMP matches that entry
alone and is not the seed (R36, R78). In any image, equal entries included, the least matching entry is the one hit. -/
def Obligations.CheckpointHitIsUnique : Prop :=
  (∀ b : Build, WFRom b → ∀ p : PolyIndex,
    (∀ k k' : EntryIndex, ckptRead b p k = ckptRead b p k' → k = k') ∧
    ∀ (v : RegState) (k : EntryIndex), ckcmp b p v = some k → v ≠ seed ∧ ∀ j, v = ckptRead b p j → j = k) ∧
  ∀ (b : Build) (p : PolyIndex) (v : RegState) (k : EntryIndex), ckcmp b p v = some k →
    v = ckptRead b p k ∧ ∀ j : EntryIndex, j ≠ 0#4 → v = ckptRead b p j → k ≤ j

/-- The distance function (R82): under WF_ROM every reachable state has exactly one distance, and it is below the period; a reverse
step lowers a distance of at least 1 by 1 and takes the seed to the last distance; entry k stands at OFFSET(k). -/
def Obligations.DistanceLaws : Prop :=
  ∀ b : Build, WFRom b → ∀ p : PolyIndex, ∀ P : Nat, IsPeriod (polyRead b p) P →
    (∀ x, Reachable (polyRead b p) x → ∃! d, IsDist (polyRead b p) x d) ∧
    (∀ x d, IsDist (polyRead b p) x d → d < P) ∧
    (∀ x d, IsDist (polyRead b p) x d → 1 ≤ d → IsDist (polyRead b p) (revStep (polyRead b p) x) (d - 1)) ∧
    IsDist (polyRead b p) (revStep (polyRead b p) seed) (P - 1) ∧
    IsDist (polyRead b p) (ckptRead b p 0#4) 0 ∧
    ∀ k : EntryIndex, k ≠ 0#4 → IsDist (polyRead b p) (ckptRead b p k) (offset b k)

/-- Bounded work (R83): a reachable input at distance d >= 1 takes exactly d - t iterations, between 1 and S, where t is the greatest
of 0 and the offsets that is below d; it comes to the entry that stands at t (the seed for t = 0) and is answered with d. -/
def Obligations.BoundedWork : Prop :=
  ∀ (b : Build), WFRom b → b.CapAdmissible →
  ∀ (id : Nat) (e : Engine) (idx : BitVec 8) (obs : BitVec 24) (d : Nat) (k : EntryIndex),
    e.phase ≠ .run → idx ≤ 3#8 → IsDist (polyRead b (selectorOf idx)) (loadBuffer obs) d → 1 ≤ d →
    offset b k < d → (∀ j : EntryIndex, offset b j < d → offset b j ≤ offset b k) →
    1 ≤ d - offset b k ∧ d - offset b k ≤ ckptSpacing ∧
    (revStep (polyRead b (selectorOf idx)))^[d - offset b k] (loadBuffer obs) = ckptRead b (selectorOf idx) k ∧
    AnswersAfter b id (encode (.recover idx obs)) (d - offset b k) (BitVec.ofNat 32 d, 0#2) e

/-! ## The engine step (spec/42_recover.md) -/

/-- A step runs the decoded instruction: with `rst = 0` and `start = 1`, when `req` decodes to `i`, the step is `exec i` on the state
in which the row is used up and its engine is the current one (R91, R96). The second clause is no rule of the spec: `withFetchWord`
and `makeReady`, which take an engine in RUN out of it, are the model's choice (DESIGN CHOICE, log 14 and log 15). -/
def Obligations.StepRunsDecodedRequest : Prop :=
  (∀ (s : State) (t : Turn) (i : Instr), s.nextTurn = t → t.rst = false → t.start = true → decode t.req = .ok i →
    i.wellFormed = true ∧ step s = exec i { s with cur := t.engine, schedule := s.schedule.tail }) ∧
  ∀ (s : State) (w : Request) (i : Instr), decode w = .ok i →
    step (s.withFetchWord 32 w.toNat) = exec i { s with engines := s.engines.modify s.cur makeReady }

/-- RECOVER presented to an engine in IDLE or DONE: the acceptance step with LOAD (R91), and its frame. With a legal index `SEL`, `BUF`,
`CNT` and `phase` are written and RESULT and STATUS become free values (log 9); with an index of 4..255 the step is BAD_INDEX, with
`SEL`, `BUF`, `CNT` unchanged. Every other engine, both ROMs and the rows to come stay as they are. -/
def Obligations.RecoverAcceptance : Prop :=
  ∀ (s : State) (e : Engine) (idx : BitVec 8) (obs : BitVec 24), s.engines[s.cur]? = some e → e.phase ≠ .run →
    (idx ≤ 3#8 →
      exec (.recover idx obs) s = .next (s.setEngine s.cur
        { phase := .run, sel := idx.extractLsb' 0 2, buf := obs.extractLsb' 0 17, cnt := 0#32,
          result := Config.freeResult s.cur e.draws, status := Config.freeStatus s.cur e.draws, draws := e.draws + 1 })) ∧
    (3#8 < idx →
      exec (.recover idx obs) s = .next (s.setEngine s.cur
        { e with status := 1#2, result := 0xFFFFFFFF#32, phase := .done }))

/-- A request word with `req & 0xFC000000 != 0`, presented in IDLE or DONE, whatever its `OBS`: the machine's step is BAD_INDEX, and
nothing else of the machine changes (R48, R116, R119, R120). -/
def Obligations.IllegalRequestEndsBadIndex : Prop :=
  ∀ (s : State) (t : Turn) (e : Engine), Scheduled s t e → t.rst = false → t.start = true →
    t.req &&& 0xFC000000#32 ≠ 0#32 → e.phase ≠ .run →
    step s = .next (s.afterTurn t { e with status := 1#2, result := 0xFFFFFFFF#32, phase := .done })

/-- A request presented to an engine in RUN is lost (R96, R140): RECOVER does there what a step without a request does, the run step
of R92 to R94, which always completes. -/
def Obligations.RecoverInRunIsLost : Prop :=
  ∀ (s : State) (e : Engine) (idx : BitVec 8) (obs : BitVec 24), s.engines[s.cur]? = some e → e.phase = .run →
    exec (.recover idx obs) s = quietStep s ∧
    exec (.recover idx obs) s = .next (s.setEngine s.cur (runStep s.build e))

/-- The machine's step does not read `start` and `req` of a row whose engine is in RUN (R96): whatever they are, it is the run step of R92 to
R94, and two rows that differ only there give the same step. -/
def Obligations.StepIgnoresRequestInRun : Prop :=
  ∀ (s : State) (t t' : Turn) (rest : List Turn) (e : Engine), s.schedule = t :: rest → t'.engine = t.engine →
    t.rst = false → t'.rst = false → s.engines[t.engine]? = some e → e.phase = .run →
    step s = .next (s.afterTurn t (runStep s.build e)) ∧ step s = step { s with schedule := t' :: rest }

/-- RETIRE (R92): in RUN with the seed entry in `BUF`, whether or not the cap is reached: `RESULT <- CNT; STATUS <- OK;
phase <- DONE`, and nothing else. -/
def Obligations.StepRetires : Prop :=
  ∀ (s : State) (t : Turn) (e : Engine), Scheduled s t e → t.rst = false → e.phase = .run →
    e.buf = ckptRead s.build e.sel 0#4 →
    step s = .next (s.afterTurn t { e with result := e.cnt, status := 0#2, phase := .done })

/-- CAPTEST fails (R93): in RUN, `BUF` not the seed entry, a cap and `CNT >= ITER_CAP`: NOT_FOUND, and nothing else. -/
def Obligations.StepFailsCap : Prop :=
  ∀ (s : State) (t : Turn) (e : Engine) (c : Nat), Scheduled s t e → t.rst = false → e.phase = .run →
    e.buf ≠ ckptRead s.build e.sel 0#4 → s.build.iterCap = some c → c ≤ e.cnt.toNat →
    step s = .next (s.afterTurn t { e with status := 2#2, result := 0xFFFFFFFF#32, phase := .done })

/-- ITERATE (R94, R80): in RUN, `BUF` not the seed entry, the cap not reached: the reverse step, then the shortcut on the least entry
hit, or else the increment; `RESULT`, `STATUS`, `SEL` and the phase unchanged. -/
def Obligations.StepIterates : Prop :=
  ∀ (s : State) (t : Turn) (e : Engine), Scheduled s t e → t.rst = false → e.phase = .run →
    e.buf ≠ ckptRead s.build e.sel 0#4 → (∀ c, s.build.iterCap = some c → e.cnt.toNat < c) →
    (∀ k, ckcmp s.build e.sel (revStep (polyRead s.build e.sel) e.buf) = some k →
      step s = .next (s.afterTurn t
        { e with cnt := e.cnt + 1#32 + BitVec.ofNat 32 (offset s.build k), buf := ckptRead s.build e.sel 0#4 })) ∧
    (ckcmp s.build e.sel (revStep (polyRead s.build e.sel) e.buf) = none →
      step s = .next (s.afterTurn t
        { e with cnt := e.cnt + 1#32, buf := revStep (polyRead s.build e.sel) e.buf }))

/-- Hold (R95): in IDLE and DONE with `rst = start = 0` the engine does not change. -/
def Obligations.StepHolds : Prop :=
  ∀ (s : State) (t : Turn) (e : Engine), Scheduled s t e → t.rst = false → t.start = false → e.phase ≠ .run →
    step s = .next (s.afterTurn t e)

/-- A reset step has priority over everything (R97, R135, R136): whatever the phase, `start` and `req`, the engine is in IDLE with
every other register unspecified (free values, log 8), `ready = 1`, `done = 0`, no response; ROMs and other engines unchanged. -/
def Obligations.StepResets : Prop :=
  ∀ (s : State) (t : Turn) (e : Engine), Scheduled s t e → t.rst = true →
    ∃ e', step s = .next (s.afterTurn t e') ∧
      e' = { phase := .idle, sel := Config.freeSel t.engine e.draws, buf := Config.freeBuf t.engine e.draws,
             cnt := Config.freeCnt t.engine e.draws, result := Config.freeResult t.engine e.draws,
             status := Config.freeStatus t.engine e.draws, draws := e.draws + 1 } ∧
      ready e' = true ∧ done e' = false ∧ out e' = none

/-- The machine's step, on the engine whose turn it is, is the engine step of R91 to R97 and always completes (R50, R84, R115), and no
step refuses. That a turn for an engine that is not there is the fault `noSuchEngine` is no rule of the spec: it is the model's
choice (DESIGN CHOICE, log 12). -/
def Obligations.StepIsEngineStep : Prop :=
  ∀ s : State,
    (∀ e, s.engines[s.nextTurn.engine]? = some e →
      step s = .next (s.afterTurn s.nextTurn (engineStep s.build s.nextTurn.engine s.nextTurn e))) ∧
    (s.engines.length ≤ s.nextTurn.engine → step s = .fault (.noSuchEngine s.nextTurn.engine)) ∧
    ∀ r, step s ≠ .refused r

/-- The phase codes and the outputs (R20, R21, R52): IDLE = 0, RUN = 1, DONE = 2, and no engine shows 3; `ready` and `done` are functions
of the phase alone; there is a response exactly in DONE. -/
def Obligations.OutputsByPhase : Prop :=
  Phase.code .idle = 0#2 ∧ Phase.code .run = 1#2 ∧ Phase.code .done = 2#2 ∧
  ∀ e : Engine,
    (ready e = true ↔ e.phase.code ≠ 1#2) ∧ (done e = true ↔ e.phase.code = 2#2) ∧ e.phase.code ≠ 3#2 ∧
    (done e = true → out e = some (e.result, e.status)) ∧ (done e = false → out e = none)

/-- A hit on the last allowed iteration ends OK (R119 (3)): with `CNT = ITER_CAP - 1` and a hit on entry k, this step and the next
leave the response (ITER_CAP + OFFSET(k), OK), although the cap is reached in between. -/
def Obligations.LastIterationHitEndsOk : Prop :=
  ∀ (b : Build) (e : Engine) (c : Nat) (k : EntryIndex), b.iterCap = some c → b.CapAdmissible → e.phase = .run →
    e.cnt.toNat + 1 = c → e.buf ≠ ckptRead b e.sel 0#4 →
    ckcmp b e.sel (revStep (polyRead b e.sel) e.buf) = some k →
    ∀ (id : Nat) (t t' : Turn), t.rst = false → t'.rst = false →
      capReached b (engineRun b id [t] e).cnt = true ∧
      out (engineRun b id [t, t'] e) = some (BitVec.ofNat 32 (c + offset b k), 0#2)

/-! ## Whole requests (spec/42_recover.md sections 2 to 4) -/

/-- The call level and the machine level agree (R98). For a legal index: the engine answers with `r` after `n` iterations iff the call
has the value `r` with `n` iterations, and never answers iff the call has no value. An illegal index is answered in the
acceptance step. -/
def Obligations.CallLevelAgreesWithMachine : Prop :=
  ∀ (b : Build) (id : Nat) (e : Engine) (idx : BitVec 8) (obs : BitVec 24), e.phase ≠ .run →
    (idx ≤ 3#8 →
      (∀ (r : CallResult) (n : Nat), AnswersAfter b id (encode (.recover idx obs)) n r.response e ↔
        ∃ fuel, recoverCount b fuel idx.toNat obs.toNat = some (r, n)) ∧
      (NeverAnswers b id (encode (.recover idx obs)) e ↔ ∀ fuel, recoverCount b fuel idx.toNat obs.toNat = none)) ∧
    (3#8 < idx →
      out (engineStep b id (requestTurn id (encode (.recover idx obs))) e) = some CallResult.badIndex.response ∧
      ∀ fuel, recoverCount b fuel idx.toNat obs.toNat = some (.badIndex, 0))

/-- Correctness for reachable inputs (R99, R101, R102): under WF_ROM and an admissible cap or none, either bias, the response to a legal
request whose value is reachable is (dist, OK), after at most S iterations, and the count is below the period. -/
def Obligations.ReachableInputReturnsItsDistance : Prop :=
  ∀ (b : Build), WFRom b → b.CapAdmissible →
  ∀ (id : Nat) (e : Engine) (idx : BitVec 8) (obs : BitVec 24) (d : Nat), e.phase ≠ .run → idx ≤ 3#8 →
    IsDist (polyRead b (selectorOf idx)) (loadBuffer obs) d →
    (∃ n ≤ ckptSpacing, AnswersAfter b id (encode (.recover idx obs)) n (BitVec.ofNat 32 d, 0#2) e) ∧
    ∀ P, IsPeriod (polyRead b (selectorOf idx)) P → d < P ∧ P ≤ 131071

/-- Named cases of correctness (R100): the seed returns 0 with no iteration; a checkpoint entry k >= 1 returns OFFSET(k), after
S - CKPT_BIAS iterations for k = 1 and S for k >= 2; the state 8192 steps from the seed returns 8192. -/
def Obligations.SeedAndCheckpointInputs : Prop :=
  ∀ (b : Build), WFRom b → b.CapAdmissible →
  ∀ (id : Nat) (e : Engine) (idx : BitVec 8) (obs : BitVec 24), e.phase ≠ .run → idx ≤ 3#8 →
    (loadBuffer obs = seed → AnswersAfter b id (encode (.recover idx obs)) 0 (0#32, 0#2) e) ∧
    (∀ k : EntryIndex, k ≠ 0#4 → loadBuffer obs = ckptRead b (selectorOf idx) k →
      AnswersAfter b id (encode (.recover idx obs)) (if k = 1#4 then ckptSpacing - b.ckptBias.val else ckptSpacing)
        (BitVec.ofNat 32 (offset b k), 0#2) e) ∧
    (loadBuffer obs = (fwdStep (polyRead b (selectorOf idx)))^[8192] seed →
      AnswersAfter b id (encode (.recover idx obs)) (if b.ckptBias = 1 then 1 else 8192) (8192#32, 0#2) e)

/-- Under WF_ROM the inputs that are never found are the unreachable ones, the all-zero value among them (R104). -/
def Obligations.UnreachableIffOffCycle : Prop :=
  ∀ (b : Build), WFRom b → ∀ (p : PolyIndex),
    (∀ x, OffCycle b p x ↔ ¬ Reachable (polyRead b p) x) ∧ OffCycle b p 0#17

/-- A legal request whose value lies on a cycle without a ROM entry ends, under a finite cap, with NOT_FOUND after exactly `ITER_CAP`
iterations, for any ROM image (R104, R117). -/
def Obligations.OffCycleEndsNotFound : Prop :=
  ∀ (b : Build) (c : Nat), b.iterCap = some c → b.CapAdmissible →
  ∀ (id : Nat) (e : Engine) (idx : BitVec 8) (obs : BitVec 24), e.phase ≠ .run → idx ≤ 3#8 →
    OffCycle b (selectorOf idx) (loadBuffer obs) →
    AnswersAfter b id (encode (.recover idx obs)) c (0xFFFFFFFF#32, 2#2) e

/-- The original's hang (R105, R118): with `ITER_CAP = NONE` such a request never leaves RUN as long as no reset comes; `CNT` is the
number of run steps modulo 2^32, `ready` and `done` stay 0. -/
def Obligations.OffCycleHangsWithoutCap : Prop :=
  ∀ (b : Build), b.iterCap = none →
  ∀ (id : Nat) (e : Engine) (idx : BitVec 8) (obs : BitVec 24), e.phase ≠ .run → idx ≤ 3#8 →
    OffCycle b (selectorOf idx) (loadBuffer obs) →
    NeverAnswers b id (encode (.recover idx obs)) e ∧
    ∀ ts, NoReset ts →
      (serve b id (encode (.recover idx obs)) ts e).cnt = BitVec.ofNat 32 ts.length ∧
      ready (serve b id (encode (.recover idx obs)) ts e) = false ∧
      done (serve b id (encode (.recover idx obs)) ts e) = false

/-- Under a finite cap every legal request is answered, for any ROM image and any input (R101, R102, R107): within `ITER_CAP`
iterations, with OK and a count of at most ITER_CAP + OFFSET(15), or with NOT_FOUND after exactly ITER_CAP. -/
def Obligations.FiniteCapEndsEveryRequest : Prop :=
  ∀ (b : Build) (c : Nat), b.iterCap = some c → b.CapAdmissible →
  ∀ (id : Nat) (e : Engine) (idx : BitVec 8) (obs : BitVec 24), e.phase ≠ .run → idx ≤ 3#8 →
    ∃ n r, n ≤ c ∧ AnswersAfter b id (encode (.recover idx obs)) n r e ∧
      ((r.2 = 0#2 ∧ r.1.toNat ≤ c + offset b 15#4) ∨ (r = (0xFFFFFFFF#32, 2#2) ∧ n = c))

/-- A run that ends without a cap ends within 2^17 iterations, with OK and a count of at most 2^17 + OFFSET(15), for any ROM image
(R101, R105). -/
def Obligations.UncappedRunEndsWithinCycle : Prop :=
  ∀ (b : Build), b.iterCap = none →
  ∀ (id : Nat) (e : Engine) (idx : BitVec 8) (obs : BitVec 24), e.phase ≠ .run → idx ≤ 3#8 →
    ∀ n r, AnswersAfter b id (encode (.recover idx obs)) n r e →
      n ≤ 2 ^ 17 ∧ r.2 = 0#2 ∧ r.1.toNat ≤ 2 ^ 17 + offset b 15#4

/-- No dependence on history (R24, R103): two engines in IDLE or DONE, whatever their registers and their numbers, answer the same
request word with the same response after the same number of steps, or neither answers. -/
def Obligations.ResponseIndependentOfHistory : Prop :=
  ∀ (b : Build) (w : Request) (id id' : Nat) (e e' : Engine), e.phase ≠ .run → e'.phase ≠ .run →
    (∀ n r, AnswersAfter b id w n r e ↔ AnswersAfter b id' w n r e') ∧
    (NeverAnswers b id w e ↔ NeverAnswers b id' w e') ∧
    out (engineStep b id (requestTurn id w) e) = out (engineStep b id' (requestTurn id' w) e')

/-! ## Several engines, and the whole machine (spec/60_exceptions.md, spec/70_reset_and_hazards.md) -/

/-- The frame of every step (R37, R43, R126): the ROMs and parameters, the number of engines and every engine whose turn it is not
stay as they are, and every ROM read gives what it gave. -/
def Obligations.StepWritesOneEngine : Prop :=
  ∀ s s' : State, step s = .next s' →
    s'.build = s.build ∧ s'.engines.length = s.engines.length ∧ s'.schedule = s.schedule.tail ∧
    (∀ j, j ≠ s.nextTurn.engine → s'.engines[j]? = s.engines[j]?) ∧
    (∀ p, polyRead s'.build p = polyRead s.build p) ∧ ∀ p k, ckptRead s'.build p k = ckptRead s.build p k

/-- Engines are independent (R43, R126): after any schedule of rows for engines that are there, in any interleaving, each engine is what
its own rows alone make of it. -/
def Obligations.EnginesRunIndependently : Prop :=
  ∀ (s : State) (ts rest : List Turn), s.schedule = ts ++ rest → (∀ t ∈ ts, t.engine < s.engines.length) →
    ∃ s', runSteps ts.length s = .next s' ∧ s'.build = s.build ∧ s'.schedule = rest ∧
      ∀ j e, s.engines[j]? = some e →
        s'.engines[j]? = some (engineRun s.build j (ts.filter fun t => t.engine == j) e)

/-- The invariant is kept by every step (R51, R80, R93, R101, R107, R115): responses carry one of the three statuses, ERR_RESULT marks
exactly the errors under a finite cap, OK leaves the seed entry in BUF, NOT_FOUND has made exactly ITER_CAP iterations. -/
def Obligations.StepKeepsInvariant : Prop :=
  ∀ s s' : State, s.Inv → step s = .next s' → s'.Inv

/-- The invariant holds at reset, whatever the open parameters are. -/
def Obligations.ResetHasInvariant : Prop := State.reset.Inv

/-- After reset (R27, R136) there is at least one engine, and every engine is in IDLE with `ready = 1`, `done = 0` and no response.
That nothing is scheduled there is the model's choice (log 14). -/
def Obligations.ResetLeavesEnginesIdle : Prop :=
  State.reset.engines ≠ [] ∧ State.reset.schedule = [] ∧
  ∀ e ∈ State.reset.engines, e.phase = .idle ∧ ready e = true ∧ done e = false ∧ out e = none

/-- Progress (R146), with the model's own turn-taking when the schedule is empty (log 6): under a finite cap, after
N_ENGINES * (ITER_CAP + 1) such steps no engine is in RUN any more, from any state in which the current engine is there. -/
def Obligations.QuietMachineEndsEveryRequest : Prop :=
  ∀ (s : State) (c : Nat), s.schedule = [] → s.cur < s.engines.length → s.build.iterCap = some c → s.build.CapAdmissible →
    ∃ s', runSteps (s.engines.length * (c + 1)) s = .next s' ∧ ∀ e ∈ s'.engines, e.phase ≠ .run
end

