-- ==== Sys2Proof/Laws/Bits.lean ====
section
/-! SUPPORT. The bits of the operands and of the two transitions, and parity as a linear function. -/

namespace Sys2Proof.Machine

/-- Two vectors with the same bits below `w` have the same parity, whatever their widths' names. -/
theorem parity_congr {w : Nat} {u v : BitVec w} (h : ∀ i < w, u.getLsbD i = v.getLsbD i) : parity u = parity v := by
  unfold parity
  congr 1
  exact List.map_congr_left fun i hi => h i (List.mem_range.mp hi)

/-- Parity is linear over exclusive or. -/
theorem parity_xor {w : Nat} (u v : BitVec w) : parity (u ^^^ v) = xor (parity u) (parity v) := by
  unfold parity
  induction List.range w with
  | nil => rfl
  | cons i l ih =>
    simp only [List.map_cons, List.foldr_cons, BitVec.getLsbD_xor, ih]
    cases u.getLsbD i <;> cases v.getLsbD i <;> simp

@[simp] theorem parity_zero (w : Nat) : parity (0#w) = false := by
  unfold parity
  induction List.range w with
  | nil => rfl
  | cons i l ih => simp [ih]

/-- A top bit that is 0 adds nothing to the parity (R64). -/
theorem parity_of_top_false {w : Nat} (v : BitVec (w + 1)) (h : v.getLsbD w = false) :
    parity v = parity (v.extractLsb' 0 w) := by
  unfold parity
  rw [List.range_succ]
  simp only [List.map_append, List.map_cons, List.map_nil, List.foldr_append, List.foldr_cons, List.foldr_nil, h,
    Bool.xor_false]
  congr 1
  exact List.map_congr_left fun i hi => by simp [List.mem_range.mp hi]

/-- `sh` is the buffer shifted one place down, with a 0 at bit 16 (R62). -/
theorem shiftDown_getLsbD (B : RegState) (i : Nat) : (shiftDown B).getLsbD i = (decide (i < 16) && B.getLsbD (i + 1)) := by
  unfold shiftDown
  rw [BitVec.getLsbD_append]
  by_cases h : i < 16 <;> simp [h, Nat.add_comm]

/-- Bits 15:0 of an insertion are those of `sh`, bit 16 is the bit inserted (R66). -/
theorem insertTop_getLsbD (r : Bool) (sh : RegState) (i : Nat) :
    (insertTop r sh).getLsbD i = if i < 16 then sh.getLsbD i else decide (i = 16) && r := by
  unfold insertTop
  rw [BitVec.getLsbD_append]
  by_cases h : i < 16
  · simp [h]
  · have : (i - 16 = 0) ↔ i = 16 := by omega
    simp [h, BitVec.getLsbD_ofBool, this]

/-- Bit i of `Fwd(C)` is bit i-1 of `C`, and bit 0 is the new bit (R69). -/
theorem fwdStep_getLsbD (M : TapMask) (C : RegState) (i : Nat) :
    (fwdStep M C).getLsbD i =
      if i = 0 then xor (C.getLsbD 16) (parity (C.extractLsb' 0 16 &&& M.extractLsb' 0 16))
      else decide (i - 1 < 16) && C.getLsbD (i - 1) := by
  unfold fwdStep
  rw [BitVec.getLsbD_append]
  by_cases h : i = 0
  · simp [h]
  · have h1 : ¬ i < 1 := by omega
    simp [h, h1]

/-- The forward transition is linear over exclusive or. -/
theorem fwdStep_xor (M : TapMask) (x y : RegState) : fwdStep M (x ^^^ y) = fwdStep M x ^^^ fwdStep M y := by
  have h : ((x ^^^ y).extractLsb' 0 16 &&& M.extractLsb' 0 16)
      = (x.extractLsb' 0 16 &&& M.extractLsb' 0 16) ^^^ (y.extractLsb' 0 16 &&& M.extractLsb' 0 16) := by
    apply BitVec.eq_of_getLsbD_eq
    intro i hi
    simp only [BitVec.getLsbD_and, BitVec.getLsbD_xor, BitVec.getLsbD_extractLsb', hi, decide_true, Bool.true_and]
    cases x.getLsbD (0 + i) <;> cases y.getLsbD (0 + i) <;> simp
  apply BitVec.eq_of_getLsbD_eq
  intro i _
  rw [BitVec.getLsbD_xor, fwdStep_getLsbD, fwdStep_getLsbD, fwdStep_getLsbD, h, parity_xor]
  by_cases h0 : i = 0
  · simp only [h0, if_true, BitVec.getLsbD_xor]
    cases x.getLsbD 16 <;> cases y.getLsbD 16 <;> simp
  · simp only [h0, if_false, BitVec.getLsbD_xor]
    cases decide (i - 1 < 16) <;> simp

/-- The load keeps the low 17 bits of `OBS`: the 21-bit mask before it is redundant (R47, D9). -/
theorem loadBuffer_eq (obs : BitVec 24) : loadBuffer obs = obs.extractLsb' 0 17 := by
  apply BitVec.eq_of_getLsbD_eq
  intro i hi
  simp [loadBuffer, workingBits, hi]

end Sys2Proof.Machine
end

