-- ==== Sys2Proof/Laws/State.lean ====
section
/-! SUPPORT. One lemma per field per update of an engine and of the state, each true by rfl. -/

namespace Sys2Proof.Machine

/-! ### `raise` -/
@[simp] theorem raise_phase (st : Status) (e : Engine) : (raise st e).phase = .done := rfl
@[simp] theorem raise_sel (st : Status) (e : Engine) : (raise st e).sel = e.sel := rfl
@[simp] theorem raise_buf (st : Status) (e : Engine) : (raise st e).buf = e.buf := rfl
@[simp] theorem raise_cnt (st : Status) (e : Engine) : (raise st e).cnt = e.cnt := rfl
@[simp] theorem raise_result (st : Status) (e : Engine) : (raise st e).result = errResult := rfl
@[simp] theorem raise_status (st : Status) (e : Engine) : (raise st e).status = st.code := rfl
@[simp] theorem raise_draws (st : Status) (e : Engine) : (raise st e).draws = e.draws := rfl

/-! ### `retire` -/
@[simp] theorem retire_phase (e : Engine) : (retire e).phase = .done := rfl
@[simp] theorem retire_sel (e : Engine) : (retire e).sel = e.sel := rfl
@[simp] theorem retire_buf (e : Engine) : (retire e).buf = e.buf := rfl
@[simp] theorem retire_cnt (e : Engine) : (retire e).cnt = e.cnt := rfl
@[simp] theorem retire_result (e : Engine) : (retire e).result = e.cnt := rfl
@[simp] theorem retire_status (e : Engine) : (retire e).status = Status.ok.code := rfl
@[simp] theorem retire_draws (e : Engine) : (retire e).draws = e.draws := rfl

/-! ### `load` -/
variable (id : Nat) (idx : BitVec 8) (obs : BitVec 24) (e : Engine)
@[simp] theorem load_phase : (load id idx obs e).phase = .run := rfl
@[simp] theorem load_sel : (load id idx obs e).sel = selectorOf idx := rfl
@[simp] theorem load_buf : (load id idx obs e).buf = loadBuffer obs := rfl
@[simp] theorem load_cnt : (load id idx obs e).cnt = 0#32 := rfl
@[simp] theorem load_result : (load id idx obs e).result = Config.freeResult id e.draws := rfl
@[simp] theorem load_status : (load id idx obs e).status = Config.freeStatus id e.draws := rfl
@[simp] theorem load_draws : (load id idx obs e).draws = e.draws + 1 := rfl

/-! ### `resetEngine` -/
@[simp] theorem resetEngine_phase : (resetEngine id e).phase = .idle := rfl
@[simp] theorem resetEngine_sel : (resetEngine id e).sel = Config.freeSel id e.draws := rfl
@[simp] theorem resetEngine_buf : (resetEngine id e).buf = Config.freeBuf id e.draws := rfl
@[simp] theorem resetEngine_cnt : (resetEngine id e).cnt = Config.freeCnt id e.draws := rfl
@[simp] theorem resetEngine_result : (resetEngine id e).result = Config.freeResult id e.draws := rfl
@[simp] theorem resetEngine_status : (resetEngine id e).status = Config.freeStatus id e.draws := rfl
@[simp] theorem resetEngine_draws : (resetEngine id e).draws = e.draws + 1 := rfl

/-! ### The state -/
variable (s : State) (t : Turn)
@[simp] theorem setEngine_build : (s.setEngine id e).build = s.build := rfl
@[simp] theorem setEngine_cur : (s.setEngine id e).cur = s.cur := rfl
@[simp] theorem setEngine_schedule : (s.setEngine id e).schedule = s.schedule := rfl
@[simp] theorem setEngine_engines : (s.setEngine id e).engines = s.engines.set id e := rfl
@[simp] theorem beginTurn_build : (s.beginTurn t).build = s.build := rfl
@[simp] theorem beginTurn_engines : (s.beginTurn t).engines = s.engines := rfl
@[simp] theorem beginTurn_cur : (s.beginTurn t).cur = t.engine := rfl
@[simp] theorem beginTurn_schedule : (s.beginTurn t).schedule = s.schedule.tail := rfl

end Sys2Proof.Machine
end

