-- ==== Sys2Proof/Laws/Ops.lean ====
section
/-! SUPPORT. For each shared operation, one lemma that says once everything it can do. -/

namespace Sys2Proof.Machine

/-- What `onCurrent` answers when the current engine is there. -/
theorem onCurrent_of_some {f : Nat → Engine → Engine} {s : State} {e : Engine} (h : s.engines[s.cur]? = some e) :
    onCurrent f s = .next (s.setEngine s.cur (f s.cur e)) := by
  unfold onCurrent; rw [h]

/-- What `onCurrent` answers when it is not. -/
theorem onCurrent_of_none {f : Nat → Engine → Engine} {s : State} (h : s.engines[s.cur]? = none) :
    onCurrent f s = .fault (.noSuchEngine s.cur) := by
  unfold onCurrent; rw [h]

/-- If `onCurrent f` answers a next state, it has replaced the current engine by `f` of it, and nothing else. -/
theorem onCurrent_next {f : Nat → Engine → Engine} {s s' : State} (h : onCurrent f s = .next s') :
    ∃ e, s.engines[s.cur]? = some e ∧ s' = s.setEngine s.cur (f s.cur e) := by
  unfold onCurrent at h
  split at h
  · next e he => cases h; exact ⟨e, he, rfl⟩
  · cases h

/-- The one arm of `exec`. -/
theorem exec_recover (idx : BitVec 8) (obs : BitVec 24) (s : State) :
    exec (.recover idx obs) s = onCurrent (fun id e => presentRequest s.build id idx obs e) s := rfl

/-- What acceptance can do: LOAD for a legal index, BAD_INDEX for another (R91). -/
theorem accept_cases (id : Nat) (idx : BitVec 8) (obs : BitVec 24) (e : Engine) :
    (legalIndex idx = true ∧ accept id idx obs e = load id idx obs e) ∨
    (legalIndex idx = false ∧ accept id idx obs e = raise .badIndex e) := by
  unfold accept
  cases h : legalIndex idx
  · exact .inr ⟨rfl, rfl⟩
  · exact .inl ⟨rfl, rfl⟩

/-- What a run step can do, guards included: RETIRE, NOT_FOUND, or an iteration (R92, R93, R94). -/
theorem runStep_cases (b : Build) (e : Engine) :
    (seedTest b e.sel e.buf = true ∧ runStep b e = retire e) ∨
    (seedTest b e.sel e.buf = false ∧ capReached b e.cnt = true ∧ runStep b e = raise .notFound e) ∨
    (seedTest b e.sel e.buf = false ∧ capReached b e.cnt = false ∧ runStep b e = iterate b e) := by
  unfold runStep
  cases h : seedTest b e.sel e.buf
  · cases h' : capReached b e.cnt
    · exact .inr (.inr ⟨rfl, rfl, rfl⟩)
    · exact .inr (.inl ⟨rfl, rfl, rfl⟩)
  · exact .inl ⟨rfl, rfl⟩

/-- What an iteration can do: a shortcut on the entry hit, or the plain step (R94). -/
theorem iterate_cases (b : Build) (e : Engine) :
    (∃ k, ckcmp b e.sel (revStep (polyRead b e.sel) e.buf) = some k ∧
      iterate b e = { e with cnt := shortcutCount b k e.cnt, buf := ckptRead b e.sel 0#4 }) ∨
    (ckcmp b e.sel (revStep (polyRead b e.sel) e.buf) = none ∧
      iterate b e = { e with cnt := countIncrement e.cnt, buf := revStep (polyRead b e.sel) e.buf }) := by
  unfold iterate
  cases h : ckcmp b e.sel (revStep (polyRead b e.sel) e.buf) with
  | none => exact .inr ⟨rfl, by simp only [h]⟩
  | some k => exact .inl ⟨k, rfl, by simp only [h]⟩

@[simp] theorem iterate_phase (b : Build) (e : Engine) : (iterate b e).phase = e.phase := by
  rcases iterate_cases b e with ⟨k, -, h⟩ | ⟨-, h⟩ <;> rw [h]
@[simp] theorem iterate_sel (b : Build) (e : Engine) : (iterate b e).sel = e.sel := by
  rcases iterate_cases b e with ⟨k, -, h⟩ | ⟨-, h⟩ <;> rw [h]
@[simp] theorem iterate_result (b : Build) (e : Engine) : (iterate b e).result = e.result := by
  rcases iterate_cases b e with ⟨k, -, h⟩ | ⟨-, h⟩ <;> rw [h]
@[simp] theorem iterate_status (b : Build) (e : Engine) : (iterate b e).status = e.status := by
  rcases iterate_cases b e with ⟨k, -, h⟩ | ⟨-, h⟩ <;> rw [h]
@[simp] theorem iterate_draws (b : Build) (e : Engine) : (iterate b e).draws = e.draws := by
  rcases iterate_cases b e with ⟨k, -, h⟩ | ⟨-, h⟩ <;> rw [h]

/-- SEEDTEST is 17-bit equality with entry 0 (R75, R77). -/
theorem seedTest_iff (b : Build) (sel : PolyIndex) (buf : RegState) :
    seedTest b sel buf = true ↔ buf = ckptRead b sel 0#4 := by
  unfold seedTest; exact beq_iff_eq

/-- CAPTEST fails iff there is a cap and it is reached (R93). -/
theorem capReached_iff (b : Build) (cnt : Count) : capReached b cnt = true ↔ ∃ c, b.iterCap = some c ∧ c ≤ cnt.toNat := by
  unfold capReached
  cases b.iterCap <;> simp

/-- A legal index is at most 3 (R46). -/
theorem legalIndex_iff (idx : BitVec 8) : legalIndex idx = true ↔ idx ≤ 3#8 := by
  unfold legalIndex; exact decide_eq_true_iff

/-- Every turn, if it answers a next state, replaces the current engine and nothing else. -/
theorem takeTurn_next {t : Turn} {s s' : State} (h : takeTurn t s = .next s') :
    ∃ e e', s.engines[s.cur]? = some e ∧ s' = s.setEngine s.cur e' := by
  have key : ∀ f, onCurrent f s = .next s' → ∃ e e', s.engines[s.cur]? = some e ∧ s' = s.setEngine s.cur e' :=
    fun f hf => let ⟨e, he, hs⟩ := onCurrent_next hf; ⟨e, _, he, hs⟩
  unfold takeTurn at h
  split at h
  · exact key _ h
  · split at h
    · split at h
      · next i _ => cases i; rw [exec_recover] at h; exact key _ h
      · exact key _ h
    · exact key _ h

/-- The next turn is the schedule's first row. -/
theorem nextTurn_cons {s : State} {t : Turn} {ts : List Turn} (h : s.schedule = t :: ts) : s.nextTurn = t := by
  unfold State.nextTurn; rw [h]

end Sys2Proof.Machine
end

