-- ==== Sys2Proof/Laws/PerInstr.lean ====
section
/-! SUPPORT. The families of statements that are made for each instruction. -/

namespace Sys2Proof.Laws

/-- The encoding of a well-formed instruction matches its row of spec/opcode_table.json: `match` 0x00000000 under `mask`
0xFC000000 (R57). -/
def EncodeMatchesTable.Statement (i : Instr) : Prop :=
  i.wellFormed = true → encode i &&& 0xFC000000#32 = 0x00000000#32

theorem EncodeMatchesTable.recover (idx : BitVec 8) (obs : BitVec 24) :
    EncodeMatchesTable.Statement (.recover idx obs) := by
  intro h
  have hidx : idx ≤ 3#8 := of_decide_eq_true h
  have hlt : idx.toNat ≤ 3 := hidx
  apply BitVec.eq_of_getLsbD_eq
  intro i hi
  simp only [encode, BitVec.getLsbD_and, BitVec.getLsbD_append, BitVec.getLsbD_zero]
  by_cases h26 : i < 26
  · have : (0xFC000000#32).getLsbD i = false := by
      revert h26; revert i; decide
    simp [this]
  · have hbit : idx.getLsbD (i - 24) = false := by
      rw [BitVec.getLsbD, Nat.testBit_eq_false_of_lt]
      calc idx.toNat ≤ 3 := hlt
        _ < 2 ^ 2 := by decide
        _ ≤ 2 ^ (i - 24) := Nat.pow_le_pow_right (by decide) (by omega)
    have : ¬ i < 24 := by omega
    simp [this, hbit]

end Sys2Proof.Laws
end

