-- ==== Sys2Proof/Laws/RefRom.lean ====
section
/-! SUPPORT. REF-ROM, the reference image of spec/93_implementation_defined.md G1 and G2 (from general knowledge, not the source's; log 22), for
both biases, and the proof that it is well formed: the witness for every statement under WF_ROM. The forward transition is linear
over exclusive or, so a power of it is given by what it does to the 17 single bits, and squaring doubles the power. -/

namespace Sys2Proof.Laws

open Sys2Proof.Machine

/-! ### Powers of a linear function -/

/-- The exclusive or of the entries of `m` at the bits set in `x`, counting from bit `i`. -/
def linAt : List RegState → Nat → RegState → RegState
  | [], _, _ => 0#17
  | c :: cs, i, x => (if x.getLsbD i then c else 0#17) ^^^ linAt cs (i + 1) x

/-- The 17 single bits. -/
def basis : List RegState := (List.range 17).map fun i => 1#17 <<< i

/-- `Fwd^(2^n)` under `M`, as the list of its values on the single bits. -/
def fwdPower (M : TapMask) : Nat → List RegState
  | 0 => basis.map (fwdStep M)
  | n + 1 => (fwdPower M n).map (linAt (fwdPower M n) 0)

theorem linAt_map {g : RegState → RegState} (h0 : g 0#17 = 0#17) (hx : ∀ u v, g (u ^^^ v) = g u ^^^ g v) (x : RegState) :
    ∀ (m : List RegState) (i : Nat), g (linAt m i x) = linAt (m.map g) i x
  | [], _ => h0
  | c :: cs, i => by
    simp only [linAt, List.map_cons, hx, linAt_map h0 hx x cs (i + 1)]
    cases x.getLsbD i <;> simp [h0]

theorem linAt_xor (m : List RegState) : ∀ (i : Nat) (x y : RegState), linAt m i (x ^^^ y) = linAt m i x ^^^ linAt m i y := by
  induction m with
  | nil => intro i x y; simp [linAt]
  | cons c cs ih =>
    intro i x y
    simp only [linAt, ih, BitVec.getLsbD_xor]
    generalize linAt cs (i + 1) x = u
    generalize linAt cs (i + 1) y = v
    cases x.getLsbD i <;> cases y.getLsbD i <;> simp
    · ac_rfl
    · ac_rfl
    · rw [← BitVec.xor_assoc, BitVec.xor_comm (c ^^^ u) c, ← BitVec.xor_assoc, BitVec.xor_self, BitVec.zero_xor]

theorem linAt_getLsbD (j : Nat) (x : RegState) :
    ∀ (l : List Nat) (i : Nat), (∀ n (h : n < l.length), l[n] = i + n) →
      (linAt (l.map fun i => 1#17 <<< i) i x).getLsbD j =
        (decide (j < 17) && decide (i ≤ j) && decide (j < i + l.length) && x.getLsbD j)
  | [], i, _ => by
    simp only [List.map_nil, linAt, BitVec.getLsbD_zero, List.length_nil, Nat.add_zero]
    by_cases h : i ≤ j
    · have : ¬ j < i := by omega
      simp [this]
    · simp [h]
  | a :: l, i, hl => by
    have ha : a = i := hl 0 (by simp)
    subst ha
    have ih := linAt_getLsbD j x l (a + 1) (fun n h => by have := hl (n + 1) (by simpa using h); simp at this; omega)
    simp only [List.map_cons, linAt, BitVec.getLsbD_xor, ih, List.length_cons]
    have hbit : ((1#17 <<< a : RegState)).getLsbD j = (decide (j < 17) && decide (j = a)) := by
      simp only [BitVec.getLsbD_shiftLeft, BitVec.getLsbD_one]
      by_cases h : j = a
      · simp [h]
      · by_cases h' : j < a
        · simp [h', h]
        · have : ¬ (j - a = 0) := by omega
          simp [this, h]
    by_cases hj : j = a
    · subst hj
      have : ¬ j + 1 ≤ j := by omega
      cases hx : x.getLsbD j <;> simp [hbit, this]
    · have e1 : (a + 1 ≤ j) ↔ a ≤ j := by omega
      have e2 : (j < a + 1 + l.length) ↔ j < a + (l.length + 1) := by omega
      cases hx : x.getLsbD a <;> simp [hbit, hj, e1, e2]

theorem linAt_basis (x : RegState) : linAt basis 0 x = x := by
  apply BitVec.eq_of_getLsbD_eq
  intro j hj
  rw [basis, linAt_getLsbD j x (List.range 17) 0 (by intro n h; simp)]
  simp [hj]

/-- What the list of values says: it gives the power at every value. -/
theorem fwdPower_spec (M : TapMask) : ∀ (n : Nat) (x : RegState), linAt (fwdPower M n) 0 x = (fwdStep M)^[2 ^ n] x
  | 0, x => by
    have h0 : fwdStep M 0#17 = 0#17 := by have := fwdStep_xor M 0#17 0#17; simpa using this
    rw [fwdPower, ← linAt_map h0 (fwdStep_xor M), linAt_basis]; rfl
  | n + 1, x => by
    have h0 : linAt (fwdPower M n) 0 0#17 = 0#17 := by
      have := linAt_xor (fwdPower M n) 0 0#17 0#17; simpa using this
    rw [fwdPower, ← linAt_map h0 (linAt_xor _ 0), fwdPower_spec M n, fwdPower_spec M n, ← Function.iterate_add_apply]
    congr 1
    rw [pow_succ]; omega

/-- `Fwd^(2^n - 1)`, one power of two after the other. -/
def fwdAllPowers (M : TapMask) : Nat → RegState → RegState
  | 0, x => x
  | n + 1, x => linAt (fwdPower M n) 0 (fwdAllPowers M n x)

theorem fwdAllPowers_spec (M : TapMask) (x : RegState) : ∀ n, fwdAllPowers M n x = (fwdStep M)^[2 ^ n - 1] x
  | 0 => rfl
  | n + 1 => by
    rw [fwdAllPowers, fwdPower_spec, fwdAllPowers_spec M x n, ← Function.iterate_add_apply]
    have : 2 ^ n + (2 ^ n - 1) = 2 ^ (n + 1) - 1 := by
      have := Nat.one_le_two_pow (n := n)
      rw [pow_succ]; omega
    rw [this]

/-! ### Maximal period -/

/-- A mask whose 131071st power fixes the seed and whose first does not has the period 131071, a prime. -/
theorem isPeriod_max {M : TapMask} (h : fwdAllPowers M 17 seed = seed) (h1 : fwdStep M seed ≠ seed) : IsPeriod M 131071 := by
  have hper : (fwdStep M)^[131071] seed = seed := by rw [fwdAllPowers_spec] at h; exact h
  refine ⟨by decide, hper, ?_⟩
  intro n hn1 hn2 hn
  have hprime : Nat.Prime 131071 := by norm_num
  have hg : Nat.gcd 131071 n = 1 := (Nat.Prime.coprime_iff_not_dvd hprime).2 fun hd => by
    have := Nat.le_of_dvd hn1 hd; omega
  have := Function.IsPeriodicPt.gcd (f := fwdStep M) (x := seed) hper hn
  rw [hg] at this
  exact h1 this

/-- Below the period, the value of a power of the seed has that power as its distance. -/
theorem isDist_of_lt {M : TapMask} {P d : Nat} {x : RegState} (hP : IsPeriod M P) (hx : (fwdStep M)^[d] seed = x) (hd : d < P) :
    IsDist M x d := by
  refine ⟨hx, fun d' hd' he => ?_⟩
  have h1 : (fwdStep M)^[P - d + d'] seed = seed := by
    rw [Function.iterate_add_apply, he, ← hx, ← Function.iterate_add_apply, Nat.sub_add_cancel (Nat.le_of_lt hd), hP.2.1]
  exact hP.2.2 (P - d + d') (by omega) (by omega) h1

/-- Each word of the list is the power `q` of the one before it. -/
def chainOk (m : List RegState) : List RegState → Bool
  | [] => true
  | [_] => true
  | x :: y :: l => decide (y = linAt m 0 x) && chainOk m (y :: l)

theorem chainOk_get {m : List RegState} {g : RegState → RegState} (hg : ∀ x, linAt m 0 x = g x) :
    ∀ (l : List RegState), chainOk m l = true → ∀ (i : Nat) (h : i < l.length), l[i] = g^[i] (l[0]'(by omega))
  | [], _, i, h => by simp at h
  | [x], _, i, h => by
    have : i = 0 := by simpa using h
    subst this; rfl
  | x :: y :: l, hc, i, h => by
    simp only [chainOk, Bool.and_eq_true, decide_eq_true_eq] at hc
    cases i with
    | zero => rfl
    | succ i =>
      have := chainOk_get hg (y :: l) hc.2 i (by simpa using h)
      simp only [List.getElem_cons_succ, List.getElem_cons_zero] at this ⊢
      rw [this, Function.iterate_succ_apply, hc.1, hg]

/-! ### REF-ROM -/

/-- The four tap masks (G1). -/
def refMasks : Vector TapMask 4 := #v[0x01D258, 0x017E04, 0x01FF6B, 0x013F67]

/-- Entries 0..15 of polynomial 0 for `CKPT_BIAS = 1` (G2). -/
def refEntries10 : List RegState :=
  [0x00001, 0x1559D, 0x1155A, 0x19902, 0x0CB1F, 0x1235E, 0x1465F, 0x1E2B1, 0x1719B, 0x14D1E,
   0x19B10, 0x08B9F, 0x1CAF5, 0x093B7, 0x1B99D, 0x10D6B]

/-- Entries 0..15 of polynomial 1 for `CKPT_BIAS = 1` (G2). -/
def refEntries11 : List RegState :=
  [0x00001, 0x1A1BE, 0x16F3C, 0x1856F, 0x05C6E, 0x08634, 0x0229E, 0x14BD1, 0x13021, 0x0E6D6,
   0x04743, 0x17685, 0x06536, 0x08FE6, 0x11A3B, 0x0799C]

/-- Entries 0..15 of polynomial 2 for `CKPT_BIAS = 1` (G2). -/
def refEntries12 : List RegState :=
  [0x00001, 0x036C4, 0x0BA96, 0x1966A, 0x0E3DA, 0x16CFA, 0x16381, 0x112E9, 0x004EB, 0x0C57B,
   0x0706F, 0x15738, 0x0FD7F, 0x087AA, 0x09703, 0x02DEE]

/-- Entries 0..15 of polynomial 3 for `CKPT_BIAS = 1` (G2). -/
def refEntries13 : List RegState :=
  [0x00001, 0x1B796, 0x1880D, 0x1C616, 0x03E8C, 0x182F3, 0x13B8A, 0x01678, 0x07885, 0x09E54,
   0x0B4B3, 0x1FA8C, 0x06ADF, 0x0ECAB, 0x021A2, 0x02FAE]

/-- Entries 0..15 of polynomial 0 for `CKPT_BIAS = 0` (G2). -/
def refEntries00 : List RegState :=
  [0x00001, 0x0AB3B, 0x02AB5, 0x13205, 0x1963F, 0x046BD, 0x08CBE, 0x1C563, 0x0E337, 0x09A3C,
   0x13621, 0x1173E, 0x195EA, 0x1276E, 0x1733B, 0x01AD7]

/-- Entries 0..15 of polynomial 1 for `CKPT_BIAS = 0` (G2). -/
def refEntries01 : List RegState :=
  [0x00001, 0x1437D, 0x0DE79, 0x10ADF, 0x0B8DD, 0x10C69, 0x0453D, 0x097A2, 0x06043, 0x1CDAD,
   0x08E87, 0x0ED0B, 0x0CA6C, 0x11FCC, 0x03476, 0x0F339]

/-- Entries 0..15 of polynomial 2 for `CKPT_BIAS = 0` (G2). -/
def refEntries02 : List RegState :=
  [0x00001, 0x06D89, 0x1752C, 0x12CD5, 0x1C7B4, 0x0D9F5, 0x0C702, 0x025D3, 0x009D6, 0x18AF7,
   0x0E0DE, 0x0AE70, 0x1FAFE, 0x10F55, 0x12E07, 0x05BDC]

/-- Entries 0..15 of polynomial 3 for `CKPT_BIAS = 0` (G2). -/
def refEntries03 : List RegState :=
  [0x00001, 0x16F2C, 0x1101A, 0x18C2D, 0x07D18, 0x105E6, 0x07715, 0x02CF1, 0x0F10B, 0x13CA8,
   0x16966, 0x1F518, 0x0D5BF, 0x1D956, 0x04344, 0x05F5C]

/-- The checkpoint words in address order, `16p + k` (R32). -/
def refCkpt (bias : Fin 2) : Vector RegState 64 :=
  if bias = 1 then ⟨(refEntries10 ++ refEntries11 ++ refEntries12 ++ refEntries13).toArray, rfl⟩
  else ⟨(refEntries00 ++ refEntries01 ++ refEntries02 ++ refEntries03).toArray, rfl⟩

/-- REF-ROM for either bias and a given cap. -/
def refBuild (bias : Fin 2) (cap : Option Nat) : Build where
  poly := refMasks
  ckpt := refCkpt bias
  ckptBias := bias
  iterCap := cap

/-- What is checked of one polynomial's words `l` under the mask `M`: entry 0 is the seed, entry 1 stands at `2^13 - bias`, each later entry
`2^13` steps after the one before it, and the period is the maximal one. -/
def imageOk (M : TapMask) (bias : Fin 2) (l : List RegState) : Bool :=
  decide (l.length = 16) && decide (l.getD 0 0#17 = seed) &&
    decide (l.getD 1 0#17 = if bias = 1 then fwdAllPowers M 13 seed else linAt (fwdPower M 13) 0 seed) &&
    chainOk (fwdPower M 13) l.tail &&
    decide (fwdAllPowers M 17 seed = seed) && !decide (fwdStep M seed = seed)

set_option maxRecDepth 20000 in
theorem refImage10_ok : imageOk 0x01D258 1 refEntries10 = true := by decide +kernel
set_option maxRecDepth 20000 in
theorem refImage11_ok : imageOk 0x017E04 1 refEntries11 = true := by decide +kernel
set_option maxRecDepth 20000 in
theorem refImage12_ok : imageOk 0x01FF6B 1 refEntries12 = true := by decide +kernel
set_option maxRecDepth 20000 in
theorem refImage13_ok : imageOk 0x013F67 1 refEntries13 = true := by decide +kernel
set_option maxRecDepth 20000 in
theorem refImage00_ok : imageOk 0x01D258 0 refEntries00 = true := by decide +kernel
set_option maxRecDepth 20000 in
theorem refImage01_ok : imageOk 0x017E04 0 refEntries01 = true := by decide +kernel
set_option maxRecDepth 20000 in
theorem refImage02_ok : imageOk 0x01FF6B 0 refEntries02 = true := by decide +kernel
set_option maxRecDepth 20000 in
theorem refImage03_ok : imageOk 0x013F67 0 refEntries03 = true := by decide +kernel

/-- The three clauses of WF_ROM (R36) for one polynomial, from the check of its words. -/
theorem clause_of_imageOk {b : Build} {p : PolyIndex} {l : List RegState} (hl : ∀ k, ckptRead b p k = l.getD k.toNat 0#17)
    (h : imageOk (polyRead b p) b.ckptBias l = true) :
    ckptRead b p 0#4 = seed ∧
    (∀ k : EntryIndex, k ≠ 0#4 → ckptRead b p k = (fwdStep (polyRead b p))^[offset b k] seed) ∧
    IsPeriod (polyRead b p) 131071 := by
  simp only [imageOk, Bool.and_eq_true, decide_eq_true_eq, Bool.not_eq_true', decide_eq_false_iff_not] at h
  obtain ⟨⟨⟨⟨⟨h16, h0⟩, h1⟩, hc⟩, hp⟩, hne⟩ := h
  refine ⟨by rw [hl]; exact h0, ?_, isPeriod_max hp hne⟩
  intro k hk
  have hk1 : 1 ≤ k.toNat := by
    rcases Nat.eq_zero_or_pos k.toNat with h | h
    · exact absurd (BitVec.eq_of_toNat_eq h) hk
    · exact h
  have hk16 : k.toNat < 16 := k.isLt
  have hg := chainOk_get (g := (fwdStep (polyRead b p))^[2 ^ 13]) (fwdPower_spec _ 13) l.tail hc (k.toNat - 1)
    (by rw [List.length_tail]; omega)
  have hentry : l.getD k.toNat 0#17 = l.tail[k.toNat - 1]'(by rw [List.length_tail]; omega) := by
    rw [List.getElem_tail, List.getD_eq_getElem _ _ (by omega)]
    congr 1; omega
  have hfirst : l.tail[0]'(by rw [List.length_tail]; omega) = (fwdStep (polyRead b p))^[2 ^ 13 - b.ckptBias.val] seed := by
    rw [List.getElem_tail, ← List.getD_eq_getElem l 0#17 (by omega), h1]
    have hb := b.ckptBias.isLt
    by_cases hb1 : b.ckptBias = 1
    · rw [if_pos hb1, fwdAllPowers_spec, hb1]; rfl
    · have : b.ckptBias.val = 0 := by
        by_contra hv; exact hb1 (Fin.ext (by show _ = 1; omega))
      rw [if_neg hb1, fwdPower_spec, this, Nat.sub_zero]
  have hbl := b.ckptBias.isLt
  have hsum : (k.toNat - 1) * 2 ^ 13 + (2 ^ 13 - b.ckptBias.val) = offset b k := by
    unfold offset; simp only [ckptSpacing]; omega
  rw [hl, hentry, hg, hfirst, ← Function.iterate_mul, ← Function.iterate_add_apply, ← hsum, Nat.mul_comm]

/-- REF-ROM is well formed under either bias (G3), and every period is 131071. -/
theorem refBuild_clause (bias : Fin 2) (cap : Option Nat) (p : PolyIndex) :
    ckptRead (refBuild bias cap) p 0#4 = seed ∧
    (∀ k : EntryIndex, k ≠ 0#4 →
      ckptRead (refBuild bias cap) p k = (fwdStep (polyRead (refBuild bias cap) p))^[offset (refBuild bias cap) k] seed) ∧
    IsPeriod (polyRead (refBuild bias cap) p) 131071 := by
  have hckpt : ∀ (p : PolyIndex) (k : EntryIndex), ckptRead (refBuild bias cap) p k = ckptRead (refBuild bias none) p k :=
    fun _ _ => rfl
  have hp : p = 0#2 ∨ p = 1#2 ∨ p = 2#2 ∨ p = 3#2 := by revert p; decide
  have hb : bias = 0 ∨ bias = 1 := by clear hckpt; revert bias; decide
  rcases hb with rfl | rfl
  · rcases hp with rfl | rfl | rfl | rfl
    · exact clause_of_imageOk (l := refEntries00) (fun k => (hckpt _ k).trans (by revert k; decide)) refImage00_ok
    · exact clause_of_imageOk (l := refEntries01) (fun k => (hckpt _ k).trans (by revert k; decide)) refImage01_ok
    · exact clause_of_imageOk (l := refEntries02) (fun k => (hckpt _ k).trans (by revert k; decide)) refImage02_ok
    · exact clause_of_imageOk (l := refEntries03) (fun k => (hckpt _ k).trans (by revert k; decide)) refImage03_ok
  · rcases hp with rfl | rfl | rfl | rfl
    · exact clause_of_imageOk (l := refEntries10) (fun k => (hckpt _ k).trans (by revert k; decide)) refImage10_ok
    · exact clause_of_imageOk (l := refEntries11) (fun k => (hckpt _ k).trans (by revert k; decide)) refImage11_ok
    · exact clause_of_imageOk (l := refEntries12) (fun k => (hckpt _ k).trans (by revert k; decide)) refImage12_ok
    · exact clause_of_imageOk (l := refEntries13) (fun k => (hckpt _ k).trans (by revert k; decide)) refImage13_ok

/-- The hypothesis WF_ROM is met: by REF-ROM, whatever the cap. -/
theorem refBuild_wf (bias : Fin 2) (cap : Option Nat) : WFRom (refBuild bias cap) := fun p =>
  let h := refBuild_clause bias cap p
  ⟨h.1, h.2.1, 131071, h.2.2, by have := bias.isLt; show 15 * 8192 - bias.val < 131071; omega, by decide⟩

/-- The distance of a power of the seed under REF-ROM. -/
theorem refBuild_isDist (bias : Fin 2) (cap : Option Nat) (p : PolyIndex) {d : Nat} {x : RegState}
    (hx : (fwdStep (polyRead (refBuild bias cap) p))^[d] seed = x) (hd : d < 131071) :
    IsDist (polyRead (refBuild bias cap) p) x d :=
  isDist_of_lt (refBuild_clause bias cap p).2.2 hx hd

end Sys2Proof.Laws
end

