-- ==== Sys2Proof/Tests/Slice0.lean ====
section
/-! SUPPORT. Tests on the rows of spec/95_test_vectors.md (each comment names its section) and, for every statement with hypotheses, a
named theorem that shows values that meet them together. -/

namespace Sys2Proof.Tests

open Sys2Proof.Machine Sys2Proof.Laws

/-! ### WellFormed and Decode (section 4, and words written out field by field from R45) -/

theorem test_wf_accepts_index_3 : (Instr.recover 3#8 0xFFFFFF#24).wellFormed = true := by decide
theorem test_wf_refuses_index_4 : (Instr.recover 4#8 0x000001#24).wellFormed = false := by decide
theorem test_wf_refuses_index_255 : (Instr.recover 255#8 0x000000#24).wellFormed = false := by decide

/-- `IDX` 2, `OBS[23:21]` 7, `OBS[20:17]` 15, `OBS[16:0]` 0x0000D. -/
theorem test_decode_word_by_fields :
    decode 0b00000010_111_1111_00000000000001101#32 = .ok (.recover 2#8 0xFE000D#24) := by decide

theorem test_decode_legal_rows :
    decode 0x00000001#32 = .ok (.recover 0#8 0x000001#24) ∧ decode 0x03000001#32 = .ok (.recover 3#8 0x000001#24) ∧
    decode 0x0201A406#32 = .ok (.recover 2#8 0x01A406#24) ∧ decode 0x00FE0001#32 = .ok (.recover 0#8 0xFE0001#24) ∧
    decode 0x03FFFFFF#32 = .ok (.recover 3#8 0xFFFFFF#24) := by decide

theorem test_decode_illegal_rows :
    decode 0x04000001#32 = .error (.badIndex 4#8) ∧ decode 0x80000001#32 = .error (.badIndex 128#8) ∧
    decode 0xFF000001#32 = .error (.badIndex 255#8) ∧ decode 0x05000000#32 = .error (.badIndex 5#8) := by decide

/-- The "`BUF` loaded" and `SEL` columns. -/
theorem test_load_columns :
    loadBuffer 0x020001#24 = 0x00001#17 ∧ loadBuffer 0x1E0001#24 = 0x00001#17 ∧ loadBuffer 0xE00001#24 = 0x00001#17 ∧
    loadBuffer 0xFFFFFF#24 = 0x1FFFF#17 ∧ loadBuffer 0x01A406#24 = 0x1A406#17 ∧ selectorOf 2#8 = 2#2 ∧ selectorOf 3#8 = 3#2 := by
  decide

theorem test_table_word :
    decodeTableWord 32 0x02FE000D = some (.recover 2#8 0xFE000D#24) ∧ decodeTableWord 32 0x04000001 = none ∧
    callRequest 4 1 = 0x04000001#32 ∧ callRequest (-1) 0 = 0xFF000000#32 ∧ assemble 2#8 0xFE0001 = 0x02FE0001#32 := by decide

/-! ### The reverse step and the forward transition (section 2) -/

/-- Rows (M, B, nxt) of section 2.1. -/
def revRows : List (TapMask × RegState × RegState) :=
  [(0x01D258, 0x00001, 0x10000), (0x01D258, 0x10000, 0x18000), (0x01D258, 0x00002, 0x00001), (0x01D258, 0x00003, 0x10001),
   (0x01D258, 0x1FFFF, 0x0FFFF), (0x01D258, 0x00000, 0x00000), (0x01D258, 0x0AB3B, 0x1559D), (0x01D258, 0x15676, 0x0AB3B),
   (0x01D258, 0x1559D, 0x1AACE), (0x017E04, 0x12345, 0x091A2), (0x017E04, 0x1A1BE, 0x1D0DF), (0x01FF6B, 0x00003, 0x00001),
   (0x01FF6B, 0x06D89, 0x036C4), (0x013F67, 0x0BEEF, 0x15F77), (0x013F67, 0x16F2C, 0x1B796)] ++
  [(0x000000, 0x15555, 0x1AAAA), (0x1FFFFF, 0x15555, 0x1AAAA), (0x00D258, 0x0AB3B, 0x1559D), (0x1FD258, 0x0AB3B, 0x1559D),
   (0x010000, 0x10000, 0x08000), (0x00FFFF, 0x1FFFE, 0x0FFFF), (0x00FFFF, 0x1FFFF, 0x1FFFF), (0x000001, 0x00003, 0x00001),
   (0x008000, 0x10000, 0x18000)]

theorem test_rev_rows : revRows.all (fun r => revStep r.1 r.2.1 == r.2.2) = true := by decide +kernel

/-- Rows (M, C, Fwd) of section 2.2. -/
def fwdRows : List (TapMask × RegState × RegState) :=
  [(0x01D258, 0x00001, 0x00002), (0x01D258, 0x10000, 0x00001), (0x01D258, 0x1FFFF, 0x1FFFE), (0x01D258, 0x0AB3B, 0x15676),
   (0x01D258, 0x1559D, 0x0AB3B), (0x01D258, 0x08000, 0x10001), (0x017E04, 0x12345, 0x0468A), (0x017E04, 0x00004, 0x00009),
   (0x01FF6B, 0x0F0F0, 0x1E1E0), (0x013F67, 0x10001, 0x00002), (0x000000, 0x15555, 0x0AAAB), (0x1FFFFF, 0x15555, 0x0AAAB)]

theorem test_fwd_rows : fwdRows.all (fun r => fwdStep r.1 r.2.1 == r.2.2) = true := by decide +kernel

/-- The sub-steps of the worked example of R60. -/
theorem test_rev_substeps :
    feedbackBit 0x0AB3B#17 = true ∧ shiftDown 0x0AB3B#17 = 0x0559D#17 ∧ maskTaps 0x01D258#21 0x0559D#17 = 0x05018#17 ∧
    parity 0x05018#17 = false ∧ reinsertBit false true = true ∧ insertTop true 0x0559D#17 = 0x1559D#17 := by decide

/-- The 21-bit buffer of R73 drops bits 20:17 of the load. -/
theorem test_wide_rev : wideRevStep 0x01D258#21 0x1EAB3B#21 = 0x01559D#21 := by decide

/-! ### The accelerator (section 3) -/

/-- REF-ROM with the reference cap. -/
def rom : Build := refBuild 1 (some 8192)

theorem rom_cap : rom.CapAdmissible := by
  show 8192 ≤ 8192 ∧ 8192 ≤ 2 ^ 31
  decide

theorem largest_cap : (refBuild 1 (some (2 ^ 31))).CapAdmissible := by
  show 8192 ≤ 2 ^ 31 ∧ 2 ^ 31 ≤ 2 ^ 31
  decide

theorem no_cap (bias : Fin 2) : (refBuild bias none).CapAdmissible := trivial

theorem test_ckcmp_rows :
    ckcmp rom 0 0x1559D = some 1 ∧ ckcmp rom 0 0x10D6B = some 15 ∧ ckcmp rom 0 0x0AB3B = none ∧ ckcmp rom 0 0x00001 = none ∧
    ckcmp rom 1 0x1559D = none ∧ ckcmp rom 1 0x13021 = some 8 ∧ ckcmp rom 3 0x1880D = some 2 ∧ offset rom 8 = 65535 := by decide

theorem test_seed_rows :
    seedTest rom 0 0x00001 = true ∧ seedTest rom 3 0x00001 = true ∧ seedTest rom 0 0x10001 = false ∧ seedTest rom 0 0x1559D = false := by
  decide

/-! ### Engine steps (sections 8 to 10) -/

/-- An engine in the given phase with the registers given; RESULT 0 and STATUS 0. -/
def engine (ph : Phase) (sel : PolyIndex) (buf : RegState) (cnt : Count) : Engine :=
  { phase := ph, sel := sel, buf := buf, cnt := cnt, result := 0, status := 0, draws := 0 }

/-- One row of inputs for engine 0. -/
def row (rst start : Bool) (req : Request) : Turn := { engine := 0, rst := rst, start := start, req := req }

/-- One engine of a machine built as `b`, with its next row of inputs. -/
def machine (b : Build) (e : Engine) (t : Turn) : State := { build := b, engines := [e], cur := 0, schedule := [t] }

/-- Engine 0 after one step. -/
def after (s : State) : Option Engine :=
  match step s with
  | .next s' => s'.engines[0]?
  | .fault _ => none
  | .refused _ => none

/-- The columns phase, SEL, `BUF`, CNT. -/
def columns (e : Engine) : Phase × PolyIndex × RegState × Count := (e.phase, e.sel, e.buf, e.cnt)

/-- P2 step 1 and P4 step 10: acceptance of a legal and of an illegal request. -/
theorem test_accept :
    (after (machine rom (engine .idle 0 0 0) (row false true 0x03002035))).map columns = some (.run, 3, 0x02035, 0) ∧
    after (machine rom { engine .done 1 1 1 with result := 1 } (row false true 0x05000000)) =
      some { engine .done 1 1 1 with result := 0xFFFFFFFF, status := 1 } := by decide

/-- P2 steps 2 to 4: an iteration, one with a hit, the retire. -/
theorem test_run_steps :
    (after (machine rom (engine .run 3 0x02035 0) (row false false 0))).map columns = some (.run, 3, 0x1101A, 1) ∧
    (after (machine rom (engine .run 3 0x1101A 1) (row false false 0))).map columns = some (.run, 3, 0x00001, 16385) ∧
    after (machine rom (engine .run 3 1 16385) (row false false 0)) =
      some { engine .done 3 1 16385 with result := 0x4001 } := by decide +kernel

/-- P4 steps 2 and 6, P1 step 3: `start` in RUN is not read, reset has priority, hold in DONE. -/
theorem test_ports :
    (after (machine rom (engine .run 0 0x15676 0) (row false true 0x01000002))).map columns = some (.run, 0, 0x0AB3B, 1) ∧
    ((after (machine rom (engine .run 2 0x0000D 0) (row true true 1))).map fun e => (ready e, done e)) = some (true, false) ∧
    after (machine rom (engine .done 0 1 0) (row false false 0)) = some (engine .done 0 1 0) := by decide +kernel

/-- Section 8: NOT_FOUND at the cap; with `ITER_CAP = NONE` the engine goes on. -/
theorem test_cap :
    after (machine rom (engine .run 0 0 8192) (row false false 0)) =
      some { engine .done 0 0 8192 with result := 0xFFFFFFFF, status := 2 } ∧
    (after (machine (refBuild 1 none) (engine .run 0 0 8192) (row false false 0))).map columns = some (.run, 0, 0, 8193) := by
  decide +kernel

/-- The image of section 9: all masks 0x010000, entry 8 equal to the seed. -/
def rotationRom : Build where
  poly := #v[0x010000, 0x010000, 0x010000, 0x010000]
  ckpt :=
    let l : List RegState := [0x00001, 0x04000, 0x01000, 0x00400, 0x00100, 0x00040, 0x00010, 0x00004,
      0x00001, 0x08000, 0x02000, 0x00800, 0x00200, 0x00080, 0x00020, 0x00008]
    ⟨(l ++ l ++ l ++ l).toArray, rfl⟩
  ckptBias := 1
  iterCap := some 8192

/-- Section 9: the hit on entry 8 wins over the seed it equals; a loaded entry is not compared at the load. -/
theorem test_malformed_rom :
    (after (machine rotationRom (engine .run 0 0x00002 0) (row false false 0))).map columns = some (.run, 0, 1, 65536) ∧
    (after (machine rotationRom (engine .run 0 0x00100 0) (row false false 0))).map columns = some (.run, 0, 1, 106496) := by
  decide +kernel

/-- P5, order 1 and 2: two engines, each stepping alone. -/
theorem test_two_engines :
    (match runSteps 2 (State.mk rom [engine .run 2 0x0000D 0, engine .run 0 0x15676 0] 0
        [row false false 0, { row false false 0 with engine := 1 }]) with
      | .next s => decide (s.engines.map columns = [(.run, 2, 0x00006, 1), (.run, 0, 0x0AB3B, 1)])
      | .fault _ => false
      | .refused _ => false) = true := by decide +kernel

/-- Call level, rows of sections 5, 7 and 8: `RECOVER 3, 0x002035`, the seed, an illegal index. -/
theorem test_call_level :
    recoverCount rom 4 3 0x002035 = some (.ok 16385, 2) ∧ recoverCount rom 1 0 0xFE0001 = some (.ok 0, 0) ∧
    recoverCount rom 0 4 0 = some (.badIndex, 0) := by decide +kernel

/-- The reset state runs a request that is placed for it. -/
theorem test_reset_runs_request :
    (after (State.reset.withFetchWord 32 0x02FE000D)).map columns = some (.run, 2, 0x0000D, 0) := by decide

/-! ### Witnesses: values that meet a statement's hypotheses -/

/-- A machine of REF-ROM whose one engine is in phase DONE, IDLE or RUN, and its row. -/
abbrev doneEngine : Engine := engine .done 0 1 0

theorem witness_DecodeEncodeAgree :
    (Instr.recover 3#8 0xFFFFFF#24).wellFormed = true ∧ decode 0x03FFFFFF#32 = .ok (.recover 3#8 0xFFFFFF#24) ∧
    0x03FFFFFF#32 &&& 0xFC000000#32 = 0x00000000#32 ∧ 0x04000000#32 &&& 0xFC000000#32 ≠ 0x00000000#32 := by decide

theorem witness_CallRequestBinding :
    (3 : Nat) ≤ 3 ∧ ((3 : Int) < 4 ∧ (4 : Int) ≤ 255) ∧ ((3 : Int) < 255 ∧ (255 : Int) ≤ 255) ∧ ((-1 : Int) < 0 ∨ (255 : Int) < -1) ∧
    ((256 : Int) < 0 ∨ (255 : Int) < 256) := by decide

theorem witness_RequestHighBitsIgnored :
    0x00FEAB3B#32 &&& 0xFF01FFFF#32 = 0x0000AB3B#32 &&& 0xFF01FFFF#32 ∧ 0x00FEAB3B#32 ≠ 0x0000AB3B#32 := by decide

theorem witness_ReverseStepClosedForm : (0 : Nat) < 16 ∧ 15 < 16 := by decide

theorem witness_ZeroBufferIsFixedPoint : IsPeriod (polyRead rom 0) 131071 := (refBuild_clause 1 (some 8192) 0).2.2

theorem witness_EffectiveTaps :
    (0x00D258#21).extractLsb' 0 16 = (0x1FD258#21).extractLsb' 0 16 ∧
    ({ rom with poly := #v[0x00D258, 0x1F7E04, 0x01FF6B, 0x013F67] } : Build).ckpt = rom.ckpt ∧
    (∀ p, (polyRead { rom with poly := #v[0x00D258, 0x1F7E04, 0x01FF6B, 0x013F67] } p).extractLsb' 0 16 =
      (polyRead rom p).extractLsb' 0 16) ∧
    (after (machine rom (engine .run 0 0x0AB3B 1) (row false false 0))).isSome = true := by decide +kernel

theorem witness_WideBufferIsEquivalent :
    recoverLoop rom 3 4 (loadBuffer 0x1E2035) 0#32 0 = some (.ok 16385, 2) ∧
    recoverLoop { rom with iterCap := some 0 } 0 1 (loadBuffer 0) 0#32 0 = some (.notFound, 0) ∧
    recoverLoop rom 0 3 (loadBuffer 0) 0#32 0 = none := by decide +kernel

theorem witness_OffsetConstants :
    (refBuild 1 none).ckptBias = 1 ∧ (refBuild 0 none).ckptBias = 0 ∧ (1#4 : EntryIndex) ≠ 0#4 ∧ (15#4 : EntryIndex) ≠ 0#4 := by decide

theorem witness_CheckpointCompareIsLeastMatch :
    (1#4 : EntryIndex) ≠ 0#4 ∧ 0x1559D#17 = ckptRead rom 0 1 ∧ (∀ j : EntryIndex, j ≠ 0#4 → j < 1#4 → 0x1559D#17 ≠ ckptRead rom 0 j) ∧
    ∀ k : EntryIndex, k ≠ 0#4 → 0x0AB3B#17 ≠ ckptRead rom 0 k := by decide +kernel

theorem witness_CheckpointHitIsUnique :
    WFRom rom ∧ WFRom (refBuild 0 none) ∧ ckcmp rom 0 0x1559D = some 1#4 ∧ ckcmp rom 0 0x10D6B = some 15#4 :=
  ⟨refBuild_wf _ _, refBuild_wf _ _, by decide, by decide⟩

theorem fwd_8192 (bias : Fin 2) (cap : Option Nat) : (fwdStep (polyRead (refBuild bias cap) 0))^[8192] seed = 0x0AB3B := by
  have h := fwdPower_spec (polyRead (refBuild bias cap) 0) 13 seed
  rw [show (2 : Nat) ^ 13 = 8192 from rfl] at h
  rw [← h]
  show linAt (fwdPower 0x01D258 13) 0 seed = 0x0AB3B
  decide +kernel

theorem fwd_131070 : (fwdStep (polyRead rom 0))^[131070] seed = 0x10000 := by
  have h := fwdAllPowers_spec (polyRead rom 0) seed 17
  rw [show fwdAllPowers (polyRead rom 0) 17 seed = seed by
    show fwdAllPowers 0x01D258 17 seed = seed
    decide +kernel, show (2 : Nat) ^ 17 - 1 = 131070 + 1 from rfl, Function.iterate_succ_apply'] at h
  have hc : ∀ y : RegState, seed = fwdStep (polyRead rom 0) y → y = 0x10000 := by
    intro y hy
    have hbits := fun i => congrArg (fun v => v.getLsbD i) hy
    simp only [fwdStep_getLsbD] at hbits
    have hlow : ∀ i < 16, y.getLsbD i = false := by
      intro i hi
      have := hbits (i + 1)
      have h1 : (seed : RegState).getLsbD (i + 1) = false := by clear this hbits h hy; revert hi; revert i; decide
      simpa [h1, hi] using this.symm
    have hx : y.extractLsb' 0 16 = 0#16 := by
      apply BitVec.eq_of_getLsbD_eq
      intro i hi
      simp only [BitVec.getLsbD_extractLsb', Nat.zero_add, hlow i hi, BitVec.getLsbD_zero, Bool.and_false]
    have htop : y.getLsbD 16 = true := by
      have := hbits 0
      rw [hx] at this
      simpa using this.symm
    apply BitVec.eq_of_getLsbD_eq
    intro i hi
    by_cases h16 : i < 16
    · rw [hlow i h16]; clear hbits h hy hlow hx htop hi; revert h16; revert i; decide
    · have : i = 16 := by omega
      subst this; rw [htop]; decide
  exact hc _ h

theorem witness_DistanceLaws :
    WFRom rom ∧ IsPeriod (polyRead rom 0) 131071 ∧ Reachable (polyRead rom 0) 0x0AB3B ∧
    IsDist (polyRead rom 0) 0x0AB3B 8192 ∧ IsDist (polyRead rom 0) 0x10000 131070 :=
  ⟨refBuild_wf _ _, (refBuild_clause _ _ _).2.2, ⟨8192, fwd_8192 _ _⟩, refBuild_isDist _ _ _ (fwd_8192 _ _) (by decide),
    refBuild_isDist _ _ _ fwd_131070 (by decide)⟩

/-- At d = 8192 the greatest offset below is that of entry 1; at d = 131070 that of entry 15; at d = 1 that of the seed. -/
theorem witness_BoundedWork :
    WFRom rom ∧ rom.CapAdmissible ∧ doneEngine.phase ≠ .run ∧ (0#8 : BitVec 8) ≤ 3#8 ∧
    (IsDist (polyRead rom (selectorOf 0)) (loadBuffer 0x00AB3B) 8192 ∧ offset rom 1 < 8192 ∧
      ∀ j : EntryIndex, offset rom j < 8192 → offset rom j ≤ offset rom 1) ∧
    (IsDist (polyRead rom (selectorOf 0)) (loadBuffer 0x010000) 131070 ∧ offset rom 15 < 131070 ∧
      ∀ j : EntryIndex, offset rom j < 131070 → offset rom j ≤ offset rom 15) ∧
    (IsDist (polyRead rom (selectorOf 0)) (loadBuffer 0x000002) 1 ∧ offset rom 0 < 1 ∧
      ∀ j : EntryIndex, offset rom j < 1 → offset rom j ≤ offset rom 0) :=
  ⟨refBuild_wf _ _, rom_cap, by decide, by decide,
    ⟨refBuild_isDist _ _ _ (fwd_8192 _ _) (by decide), by decide, by decide⟩,
    ⟨refBuild_isDist _ _ _ fwd_131070 (by decide), by decide, by decide⟩,
    ⟨refBuild_isDist _ _ _ (by decide +kernel) (by decide), by decide, by decide⟩⟩

theorem witness_StepRunsDecodedRequest :
    (machine rom doneEngine (row false true 0x02FE000D)).nextTurn = row false true 0x02FE000D ∧
    (row false true 0x02FE000D).rst = false ∧ (row false true 0x02FE000D).start = true ∧
    decode 0x02FE000D#32 = .ok (.recover 2#8 0xFE000D#24) := by decide +kernel

/-- The second clause with the current engine in RUN: `withFetchWord` puts it into IDLE (log 15), and the word is accepted. -/
theorem witness_StepRunsDecodedRequest_inRun :
    decode 0x02FE000D#32 = .ok (.recover 2#8 0xFE000D#24) ∧
    (machine rom (engine .run 0 0x15676 5) (row false false 0)).engines[0]? = some (engine .run 0 0x15676 5) ∧
    (after ((machine rom (engine .run 0 0x15676 5) (row false false 0)).withFetchWord 32 0x02FE000D)).map columns =
      some (.run, 2, 0x0000D, 0) := by decide +kernel

theorem witness_RecoverAcceptance :
    (machine rom doneEngine (row false false 0)).engines[(machine rom doneEngine (row false false 0)).cur]? = some doneEngine ∧
    doneEngine.phase ≠ .run ∧ (engine .idle 0 0 0).phase ≠ .run ∧ (3#8 : BitVec 8) ≤ 3#8 ∧ (3#8 : BitVec 8) < 4#8 ∧
    (3#8 : BitVec 8) < 255#8 := by decide

/-- The machine of a statement about a row that is `Scheduled` for engine 0. -/
theorem scheduled_machine (b : Build) (e : Engine) (rst start : Bool) (req : Request) :
    Scheduled (machine b e (row rst start req)) (row rst start req) e := ⟨rfl, rfl⟩

theorem witness_IllegalRequestEndsBadIndex :
    Scheduled (machine rom doneEngine (row false true 0x04000000)) (row false true 0x04000000) doneEngine ∧
    0x04000000#32 &&& 0xFC000000#32 ≠ 0#32 ∧ doneEngine.phase ≠ .run :=
  ⟨scheduled_machine _ _ _ _ _, by decide, by decide⟩

theorem witness_RecoverInRunIsLost :
    (machine rom (engine .run 0 0x15676 0) (row false false 0)).engines[0]? = some (engine .run 0 0x15676 0) ∧
    (engine .run 0 0x15676 0).phase = .run := by decide

theorem witness_StepIgnoresRequestInRun :
    (machine rom (engine .run 0 0x15676 0) (row false true 0x01000002)).schedule = row false true 0x01000002 :: [] ∧
    (row false false 0).engine = (row false true 0x01000002).engine ∧
    (machine rom (engine .run 0 0x15676 0) (row false true 0x01000002)).engines[(row false true 0x01000002).engine]? =
      some (engine .run 0 0x15676 0) := by decide +kernel

theorem witness_StepRetires :
    Scheduled (machine rom (engine .run 0 1 8193) (row false false 0)) (row false false 0) (engine .run 0 1 8193) ∧
    (engine .run 0 1 8193).buf = ckptRead rom (engine .run 0 1 8193).sel 0#4 ∧ capReached rom 8193 = true :=
  ⟨scheduled_machine _ _ _ _ _, by decide, by decide⟩

theorem witness_StepFailsCap :
    Scheduled (machine rom (engine .run 0 0 8192) (row false false 0)) (row false false 0) (engine .run 0 0 8192) ∧
    (engine .run 0 0 8192).buf ≠ ckptRead rom (engine .run 0 0 8192).sel 0#4 ∧ rom.iterCap = some 8192 ∧
    8192 ≤ (engine .run 0 0 8192).cnt.toNat :=
  ⟨scheduled_machine _ _ _ _ _, by decide, by decide, by decide⟩

/-- A hit with the last count below the cap, and a step without a hit. -/
theorem witness_StepIterates :
    Scheduled (machine rom (engine .run 0 0x0AB3B 8191) (row false true 7)) (row false true 7) (engine .run 0 0x0AB3B 8191) ∧
    (0x0AB3B#17 : RegState) ≠ ckptRead rom 0 0#4 ∧ (∀ c, rom.iterCap = some c → (engine .run 0 0x0AB3B 8191).cnt.toNat < c) ∧
    ckcmp rom 0 (revStep (polyRead rom 0) 0x0AB3B) = some 1#4 ∧ ckcmp rom 0 (revStep (polyRead rom 0) 0x15676) = none :=
  ⟨scheduled_machine _ _ _ _ _, by decide, fun c h => by cases h; decide, by decide +kernel, by decide +kernel⟩

theorem witness_StepHolds :
    Scheduled (machine rom doneEngine (row false false 0)) (row false false 0) doneEngine ∧ doneEngine.phase ≠ .run :=
  ⟨scheduled_machine _ _ _ _ _, by decide⟩

theorem witness_StepResets :
    Scheduled (machine rom (engine .run 2 0x0000D 0) (row true true 1)) (row true true 1) (engine .run 2 0x0000D 0) ∧
    (row true true 1).rst = true := ⟨scheduled_machine _ _ _ _ _, rfl⟩

/-- An engine that is there, and a turn for one that is not. -/
theorem witness_StepIsEngineStep :
    (machine rom doneEngine (row false false 0)).engines[(row false false 0).engine]? = some doneEngine ∧
    (machine rom doneEngine { row false false 0 with engine := 1 }).engines.length ≤
      (machine rom doneEngine { row false false 0 with engine := 1 }).nextTurn.engine := ⟨rfl, by decide⟩

theorem witness_OutputsByPhase : done doneEngine = true ∧ done (engine .idle 0 0 0) = false := by decide

theorem witness_LastIterationHitEndsOk :
    rom.iterCap = some 8192 ∧ rom.CapAdmissible ∧ (engine .run 0 0x0AB3B 8191).cnt.toNat + 1 = 8192 ∧
    (0x0AB3B#17 : RegState) ≠ ckptRead rom 0 0#4 ∧ ckcmp rom 0 (revStep (polyRead rom 0) 0x0AB3B) = some 1#4 ∧
    (row false true 0).rst = false :=
  ⟨rfl, rom_cap, by decide, by decide, by decide +kernel, rfl⟩

/-- A call with a value, one without, and an illegal index. -/
theorem witness_CallLevelAgreesWithMachine :
    doneEngine.phase ≠ .run ∧ (3#8 : BitVec 8) ≤ 3#8 ∧ (3#8 : BitVec 8) < 4#8 ∧
    (∃ fuel, recoverCount rom fuel (3#8).toNat (0x002035#24).toNat = some (.ok 16385, 2)) :=
  ⟨by decide, by decide, by decide, 4, by decide +kernel⟩

theorem witness_ReachableInputReturnsItsDistance :
    WFRom rom ∧ WFRom (refBuild 0 none) ∧ rom.CapAdmissible ∧ (refBuild 0 none).CapAdmissible ∧
    doneEngine.phase ≠ .run ∧ (0#8 : BitVec 8) ≤ 3#8 ∧
    IsDist (polyRead rom (selectorOf 0)) (loadBuffer 0x00AB3B) 8192 ∧
    IsDist (polyRead (refBuild 0 none) (selectorOf 0)) (loadBuffer 0x00AB3B) 8192 ∧
    IsDist (polyRead rom (selectorOf 0)) (loadBuffer 0x000001) 0 ∧ IsPeriod (polyRead rom (selectorOf 0)) 131071 :=
  ⟨refBuild_wf _ _, refBuild_wf _ _, rom_cap, no_cap _, by decide, by decide,
    refBuild_isDist _ _ _ (fwd_8192 _ _) (by decide), refBuild_isDist _ _ _ (fwd_8192 _ _) (by decide),
    refBuild_isDist _ _ _ rfl (by decide), (refBuild_clause _ _ _).2.2⟩

/-- The seed; entries 1, 2 and 15; the state 8192 steps from the seed under either bias. -/
theorem witness_SeedAndCheckpointInputs :
    WFRom rom ∧ WFRom (refBuild 0 none) ∧ loadBuffer 0xFE0001 = seed ∧ loadBuffer 0x01559D = ckptRead rom (selectorOf 0) 1 ∧
    loadBuffer 0x01155A = ckptRead rom (selectorOf 0) 2 ∧ loadBuffer 0x010D6B = ckptRead rom (selectorOf 0) 15 ∧
    loadBuffer 0x00AB3B = (fwdStep (polyRead rom (selectorOf 0)))^[8192] seed ∧ rom.ckptBias = 1 ∧
    loadBuffer 0x00AB3B = (fwdStep (polyRead (refBuild 0 none) (selectorOf 0)))^[8192] seed ∧ (refBuild 0 none).ckptBias ≠ 1 :=
  ⟨refBuild_wf _ _, refBuild_wf _ _, by decide, by decide, by decide, by decide, (fwd_8192 _ _).symm, by decide,
    (fwd_8192 _ _).symm, by decide⟩

/-- The all-zero value is off every cycle that holds an entry of REF-ROM. -/
theorem zero_offCycle (cap : Option Nat) : OffCycle (refBuild 1 cap) 0 0 := by
  intro j k
  have h0 : revStep (polyRead (refBuild 1 cap) 0) 0 = 0 := by
    show revStep 0x01D258 0 = 0
    decide
  rw [Function.iterate_fixed h0]
  show (0 : RegState) ≠ ckptRead (refBuild 1 none) 0 k
  revert k; decide

theorem witness_UnreachableIffOffCycle : WFRom rom := refBuild_wf _ _

theorem witness_OffCycleEndsNotFound :
    rom.iterCap = some 8192 ∧ rom.CapAdmissible ∧ doneEngine.phase ≠ .run ∧ (0#8 : BitVec 8) ≤ 3#8 ∧
    OffCycle rom (selectorOf 0) (loadBuffer 0xFE0000) := ⟨rfl, rom_cap, by decide, by decide, zero_offCycle _⟩

theorem witness_OffCycleHangsWithoutCap :
    (refBuild 1 none).iterCap = none ∧ doneEngine.phase ≠ .run ∧ (0#8 : BitVec 8) ≤ 3#8 ∧
    OffCycle (refBuild 1 none) (selectorOf 0) (loadBuffer 0xFE0000) ∧ NoReset [row false true 0x01000002] :=
  ⟨rfl, by decide, by decide, zero_offCycle _, by decide⟩

theorem witness_FiniteCapEndsEveryRequest :
    rom.iterCap = some 8192 ∧ rom.CapAdmissible ∧ (refBuild 1 (some (2 ^ 31))).CapAdmissible ∧ doneEngine.phase ≠ .run ∧
    (3#8 : BitVec 8) ≤ 3#8 := ⟨rfl, rom_cap, largest_cap, by decide, by decide⟩

/-- Without a cap the request for the seed is answered after 0 iterations. -/
theorem witness_UncappedRunEndsWithinCycle :
    (refBuild 1 none).iterCap = none ∧ doneEngine.phase ≠ .run ∧ (0#8 : BitVec 8) ≤ 3#8 ∧
    AnswersAfter (refBuild 1 none) 0 (encode (.recover 0#8 0x000001#24)) 0 (0#32, 0#2) doneEngine := by
  refine ⟨rfl, by decide, by decide, ?_⟩
  intro ts hts
  constructor
  · intro h
    have : ts = [] := List.eq_nil_of_length_eq_zero (by omega)
    subst this; decide
  · intro h
    obtain ⟨t, rfl⟩ := List.length_eq_one_iff.1 h
    have ht : t.rst = false := hts t (by simp)
    obtain ⟨id, rst, start, req⟩ := t
    cases ht
    have hacc : engineStep (refBuild 1 none) 0 (requestTurn 0 (encode (.recover 0#8 0x000001#24))) doneEngine =
        load 0 0#8 0x000001#24 doneEngine := rfl
    have hrun : ∀ i, engineStep (refBuild 1 none) 0 { engine := id, rst := false, start := start, req := i }
        (load 0 0#8 0x000001#24 doneEngine) = runStep (refBuild 1 none) (load 0 0#8 0x000001#24 doneEngine) := by
      intro i
      unfold engineStep
      cases start
      · rfl
      · simp only [Bool.false_eq_true, if_false, if_true]
        cases h : decode i with
        | ok j => cases j; rfl
        | error _ => rfl
    simp only [serve, engineRun, List.foldl_cons, List.foldl_nil]
    rw [hacc, hrun]
    rfl

theorem witness_ResponseIndependentOfHistory :
    doneEngine.phase ≠ .run ∧ (engine .idle 3 0x12345 77).phase ≠ .run := by decide

theorem witness_StepWritesOneEngine :
    (after (machine rom doneEngine (row false true 0x00000001))).isSome = true ∧
    1 ≠ (machine rom doneEngine (row false true 0x00000001)).nextTurn.engine := by decide

theorem witness_EnginesRunIndependently :
    let s : State := State.mk rom [engine .run 2 0x0000D 0, engine .run 0 0x15676 0] 0
      [row false false 0, { row false false 0 with engine := 1 }]
    s.schedule = [row false false 0, { row false false 0 with engine := 1 }] ++ [] ∧
    (∀ t ∈ [row false false 0, { row false false 0 with engine := 1 }], t.engine < s.engines.length) ∧
    s.engines[1]? = some (engine .run 0 0x15676 0) := by decide

theorem witness_StepKeepsInvariant :
    (machine rom (engine .idle 0 0 0) (row false true 0x00000001)).Inv ∧
    (after (machine rom (engine .idle 0 0 0) (row false true 0x00000001))).isSome = true := by
  refine ⟨⟨by decide, rom_cap, ?_⟩, by decide⟩
  intro e he
  have : e = engine .idle 0 0 0 := by simpa [machine] using he
  subst this
  exact ⟨fun h => Phase.noConfusion h, fun h => Phase.noConfusion h⟩

theorem witness_QuietMachineEndsEveryRequest :
    let s : State := { build := rom, engines := [engine .run 0 0 0, engine .run 0 0x15676 0], cur := 1, schedule := [] }
    s.schedule = [] ∧ s.cur < s.engines.length ∧ s.build.iterCap = some 8192 ∧ s.build.CapAdmissible :=
  ⟨rfl, by decide, rfl, rom_cap⟩

end Sys2Proof.Tests
end

section
/-! SUPPORT. The machine at reset: what `State.resetWith` holds, the admissible cap, and the invariant's base case. -/

namespace Sys2Proof.Machine

@[simp] theorem resetWith_build (b : Build) (n : Nat) : (State.resetWith b n).build = b := rfl
@[simp] theorem resetWith_engines (b : Build) (n : Nat) : (State.resetWith b n).engines = List.replicate n Engine.reset := rfl
@[simp] theorem resetWith_schedule (b : Build) (n : Nat) : (State.resetWith b n).schedule = [] := rfl
@[simp] theorem engineReset_phase : Engine.reset.phase = .idle := rfl

/-- R5's bound on `ITER_CAP` speaks of a finite cap only. -/
theorem capAdmissible_iff (b : Build) :
    b.CapAdmissible ↔ ∀ c, b.iterCap = some c → ckptSpacing ≤ c ∧ c ≤ iterCapMax := by
  unfold Build.CapAdmissible
  cases b.iterCap with
  | none => simp
  | some c => simp

/-- A cap of the machine is `S` plus a margin of `Config.capMargin`'s type. -/
theorem exists_margin_of_config_iterCap {c : Nat} (h : Config.iterCap = some c) :
    ∃ m : Fin 2147475457, ckptSpacing + m.val = c := by
  obtain ⟨m, -, hm⟩ := Option.map_eq_some_iff.mp h
  exact ⟨m, hm⟩

/-- The cap of the machine is admissible whatever margin is drawn (R5, log 3). -/
theorem config_build_capAdmissible : Config.build.CapAdmissible := by
  rw [capAdmissible_iff]
  intro c hc
  obtain ⟨m, rfl⟩ := exists_margin_of_config_iterCap hc
  refine ⟨Nat.le_add_right _ _, ?_⟩
  have hm : m.val < 2147475457 := m.isLt
  unfold ckptSpacing iterCapMax
  omega

/-- In IDLE nothing but the phase is known (R136). -/
theorem engineInv_of_idle (b : Build) {e : Engine} (h : e.phase = .idle) : EngineInv b e := by
  simp [EngineInv, h]

/-- A machine of at least one engine with an admissible cap has the invariant at reset. -/
theorem resetWith_inv {b : Build} {n : Nat} (hb : b.CapAdmissible) (hn : n ≠ 0) : (State.resetWith b n).Inv := by
  refine ⟨by simpa using hn, hb, ?_⟩
  intro e he
  obtain rfl : e = Engine.reset := List.eq_of_mem_replicate he
  exact engineInv_of_idle b engineReset_phase

/-- Settles O40: the open parameters are of types that hold only a positive number of engines and admissible caps. -/
theorem resetHasInvariant : Obligations.ResetHasInvariant :=
  resetWith_inv config_build_capAdmissible (Nat.succ_ne_zero Config.extraEngines)

end Sys2Proof.Machine
end

section
/-! SUPPORT. The engine step by cases: one equation for each of the rules R91 to R97, and the outputs by phase (R20, R21). -/

namespace Sys2Proof.Machine

/-! ### The outputs by phase -/
section Outputs
variable {e : Engine}

theorem out_of_idle (h : e.phase = .idle) : out e = none := by simp [out, h]
theorem out_of_run (h : e.phase = .run) : out e = none := by simp [out, h]
theorem out_of_done (h : e.phase = .done) : out e = some (e.result, e.status) := by simp [out, h]
theorem ready_of_idle (h : e.phase = .idle) : ready e = true := by simp [ready, h]
theorem done_of_idle (h : e.phase = .idle) : done e = false := by simp [done, h]

end Outputs

/-! ### The run step and the iteration -/
section RunStep
variable {b : Build} {e : Engine}

/-- RETIRE (R92). -/
theorem runStep_of_seed (hseed : seedTest b e.sel e.buf = true) : runStep b e = retire e := by
  simp [runStep, hseed]

/-- The cap is tested after the seed (R93). -/
theorem runStep_of_cap (hseed : seedTest b e.sel e.buf = false) (hcap : capReached b e.cnt = true) :
    runStep b e = raise .notFound e := by
  simp [runStep, hseed, hcap]

/-- ITERATE comes after both tests (R94). -/
theorem runStep_of_neither (hseed : seedTest b e.sel e.buf = false) (hcap : capReached b e.cnt = false) :
    runStep b e = iterate b e := by
  simp [runStep, hseed, hcap]

/-- The shortcut (R80, R94). -/
theorem iterate_of_hit {k : EntryIndex} (h : ckcmp b e.sel (revStep (polyRead b e.sel) e.buf) = some k) :
    iterate b e = { e with cnt := shortcutCount b k e.cnt, buf := ckptRead b e.sel 0#4 } := by
  simp only [iterate, h]

/-- The plain iteration (R94). -/
theorem iterate_of_noHit (h : ckcmp b e.sel (revStep (polyRead b e.sel) e.buf) = none) :
    iterate b e = { e with cnt := countIncrement e.cnt, buf := revStep (polyRead b e.sel) e.buf } := by
  simp only [iterate, h]

end RunStep

/-! ### The engine step -/

/-- The decoder answers well-formed instructions only (R48). -/
theorem wellFormed_of_decode_ok {w : Request} {i : Instr} (h : decode w = .ok i) : i.wellFormed = true := by
  simp only [decode] at h
  split at h
  · next hwf => cases h; exact hwf
  · cases h

theorem accept_of_legal {idx : BitVec 8} (h : legalIndex idx = true) (id : Nat) (obs : BitVec 24) (e : Engine) :
    accept id idx obs e = load id idx obs e := by
  simp [accept, h]

section EngineStep
variable {b : Build} {id : Nat} {t : Turn} {e : Engine}

/-- Reset has priority over everything (R97). -/
theorem engineStep_of_rst (hrst : t.rst = true) : engineStep b id t e = resetEngine id e := by
  simp [engineStep, hrst]

/-- In RUN neither `start` nor `req` is read (R96). -/
theorem engineStep_of_run (hrst : t.rst = false) (hrun : e.phase = .run) : engineStep b id t e = runStep b e := by
  cases hstart : t.start
  · simp [engineStep, hrst, hstart, quietEngine, hrun]
  · cases hdec : decode t.req with
    | ok i => cases i; simp [engineStep, hrst, hstart, hdec, presentRequest, hrun]
    | error r => simp [engineStep, hrst, hstart, hdec, presentIllegal, hrun]

/-- Hold in IDLE and DONE (R95). -/
theorem engineStep_of_quiet (hrst : t.rst = false) (hstart : t.start = false) (hrun : e.phase ≠ .run) :
    engineStep b id t e = e := by
  cases hph : e.phase with
  | run => exact absurd hph hrun
  | idle => simp [engineStep, hrst, hstart, quietEngine, hph]
  | done => simp [engineStep, hrst, hstart, quietEngine, hph]

/-- A legal request is loaded in IDLE and DONE (R91). -/
theorem engineStep_of_legal {idx : BitVec 8} {obs : BitVec 24} (hrst : t.rst = false) (hstart : t.start = true)
    (hdec : decode t.req = .ok (.recover idx obs)) (hrun : e.phase ≠ .run) :
    engineStep b id t e = load id idx obs e := by
  have hacc : accept id idx obs e = load id idx obs e := accept_of_legal (wellFormed_of_decode_ok hdec) id obs e
  cases hph : e.phase with
  | run => exact absurd hph hrun
  | idle => simp [engineStep, hrst, hstart, hdec, presentRequest, hph, hacc]
  | done => simp [engineStep, hrst, hstart, hdec, presentRequest, hph, hacc]

/-- An illegal word is BAD_INDEX in IDLE and DONE (R48, R91, R116). -/
theorem engineStep_of_illegal {r : DecodeError} (hrst : t.rst = false) (hstart : t.start = true)
    (hdec : decode t.req = .error r) (hrun : e.phase ≠ .run) :
    engineStep b id t e = raise .badIndex e := by
  cases hph : e.phase with
  | run => exact absurd hph hrun
  | idle => simp [engineStep, hrst, hstart, hdec, presentIllegal, hph]
  | done => simp [engineStep, hrst, hstart, hdec, presentIllegal, hph]

end EngineStep

end Sys2Proof.Machine
end

section
/-! SUPPORT. A response depends on the request alone (R24, R103): two engines that show the same phase and the same outputs, and hold
the same request in flight, stay so under equal inputs, whatever their numbers and their other registers. -/

namespace Sys2Proof.Machine

/-- Two engines that no later input can tell apart: the registers that a rule will still read are equal. RESULT and STATUS hold no
value in RUN (R21), and outside RUN no rule reads `SEL`, `BUF` or `CNT`. -/
structure SameFuture (e e' : Engine) : Prop where
  phase_eq : e.phase = e'.phase
  out_eq : out e = out e'
  inFlight : e.phase = .run → e.sel = e'.sel ∧ e.buf = e'.buf ∧ e.cnt = e'.cnt

namespace SameFuture
variable {e e' : Engine}

theorem of_idle (h : e.phase = .idle) (h' : e'.phase = .idle) : SameFuture e e' where
  phase_eq := h.trans h'.symm
  out_eq := (out_of_idle h).trans (out_of_idle h').symm
  inFlight hrun := by simp [h] at hrun

theorem of_run (h : e.phase = .run) (h' : e'.phase = .run) (hreg : e.sel = e'.sel ∧ e.buf = e'.buf ∧ e.cnt = e'.cnt) :
    SameFuture e e' where
  phase_eq := h.trans h'.symm
  out_eq := (out_of_run h).trans (out_of_run h').symm
  inFlight _ := hreg

theorem of_done (h : e.phase = .done) (h' : e'.phase = .done) (hresult : e.result = e'.result)
    (hstatus : e.status = e'.status) : SameFuture e e' where
  phase_eq := h.trans h'.symm
  out_eq := by rw [out_of_done h, out_of_done h', hresult, hstatus]
  inFlight hrun := by simp [h] at hrun

end SameFuture

/-- An abnormal end leaves nothing of what the engine held before in its response (R120). -/
theorem sameFuture_raise (st : Status) (e e' : Engine) : SameFuture (raise st e) (raise st e') :=
  .of_done rfl rfl rfl rfl

/-- The free values of a LOAD go to RESULT and STATUS, which no rule reads in RUN. -/
theorem sameFuture_load (id id' : Nat) (idx : BitVec 8) (obs : BitVec 24) (e e' : Engine) :
    SameFuture (load id idx obs e) (load id' idx obs e') :=
  .of_run rfl rfl ⟨rfl, rfl, rfl⟩

section InFlight
variable {e e' : Engine}

/-- What an iteration makes of the request in flight depends on `SEL`, `BUF` and `CNT` alone (R94). -/
theorem iterate_inFlight_congr (b : Build) (hsel : e.sel = e'.sel) (hbuf : e.buf = e'.buf) (hcnt : e.cnt = e'.cnt) :
    (iterate b e).buf = (iterate b e').buf ∧ (iterate b e).cnt = (iterate b e').cnt := by
  cases hit : ckcmp b e.sel (revStep (polyRead b e.sel) e.buf) with
  | none => rw [iterate_of_noHit hit, iterate_of_noHit (hsel ▸ hbuf ▸ hit), hsel, hbuf, hcnt]; exact ⟨rfl, rfl⟩
  | some k => rw [iterate_of_hit hit, iterate_of_hit (hsel ▸ hbuf ▸ hit), hsel, hcnt]; exact ⟨rfl, rfl⟩

/-- The run step reads the request in flight and nothing else (R92 to R94). -/
theorem sameFuture_runStep (b : Build) (hrun : e.phase = .run) (h : SameFuture e e') :
    SameFuture (runStep b e) (runStep b e') := by
  obtain ⟨hsel, hbuf, hcnt⟩ := h.inFlight hrun
  have hrun' : e'.phase = .run := h.phase_eq ▸ hrun
  cases hseed : seedTest b e.sel e.buf with
  | true =>
    rw [runStep_of_seed hseed, runStep_of_seed (hsel ▸ hbuf ▸ hseed)]
    exact .of_done rfl rfl hcnt rfl
  | false =>
    have hseed' : seedTest b e'.sel e'.buf = false := hsel ▸ hbuf ▸ hseed
    cases hcap : capReached b e.cnt with
    | true =>
      rw [runStep_of_cap hseed hcap, runStep_of_cap hseed' (hcnt ▸ hcap)]
      exact sameFuture_raise .notFound e e'
    | false =>
      rw [runStep_of_neither hseed hcap, runStep_of_neither hseed' (hcnt ▸ hcap)]
      exact .of_run (by simpa using hrun) (by simpa using hrun')
        ⟨by simpa using hsel, iterate_inFlight_congr b hsel hbuf hcnt⟩

/-- Acceptance forgets the history: no relation between the two engines is assumed (R24, R91). -/
theorem sameFuture_of_request (b : Build) (id id' : Nat) {t t' : Turn} (hreq : t.req = t'.req)
    (hrst : t.rst = false) (hstart : t.start = true) (hrst' : t'.rst = false) (hstart' : t'.start = true)
    (hrun : e.phase ≠ .run) (hrun' : e'.phase ≠ .run) :
    SameFuture (engineStep b id t e) (engineStep b id' t' e') := by
  cases hdec : decode t.req with
  | ok i =>
    obtain ⟨idx, obs⟩ := i
    rw [engineStep_of_legal hrst hstart hdec hrun, engineStep_of_legal hrst' hstart' (hreq ▸ hdec) hrun']
    exact sameFuture_load id id' idx obs e e'
  | error r =>
    rw [engineStep_of_illegal hrst hstart hdec hrun, engineStep_of_illegal hrst' hstart' (hreq ▸ hdec) hrun']
    exact sameFuture_raise .badIndex e e'

/-- Every engine step keeps the relation, a reset step included. -/
theorem sameFuture_engineStep (b : Build) (id id' : Nat) (t : Turn) (h : SameFuture e e') :
    SameFuture (engineStep b id t e) (engineStep b id' t e') := by
  cases hrst : t.rst with
  | true =>
    rw [engineStep_of_rst hrst, engineStep_of_rst hrst]
    exact .of_idle rfl rfl
  | false =>
    by_cases hrun : e.phase = .run
    · rw [engineStep_of_run hrst hrun, engineStep_of_run hrst (h.phase_eq ▸ hrun)]
      exact sameFuture_runStep b hrun h
    · have hrun' : e'.phase ≠ .run := h.phase_eq ▸ hrun
      cases hstart : t.start with
      | true => exact sameFuture_of_request b id id' rfl hrst hstart hrst hstart hrun hrun'
      | false => rwa [engineStep_of_quiet hrst hstart hrun, engineStep_of_quiet hrst hstart hrun']

end InFlight

theorem sameFuture_engineRun (b : Build) (id id' : Nat) (ts : List Turn) :
    ∀ {e e' : Engine}, SameFuture e e' → SameFuture (engineRun b id ts e) (engineRun b id' ts e') := by
  induction ts with
  | nil => exact fun h => h
  | cons t ts ih => exact fun h => ih (sameFuture_engineStep b id id' t h)

/-- The acceptance makes the two engines alike, and every later step keeps them so. -/
theorem sameFuture_serve (b : Build) (w : Request) (id id' : Nat) (ts : List Turn) {e e' : Engine}
    (hrun : e.phase ≠ .run) (hrun' : e'.phase ≠ .run) :
    SameFuture (serve b id w ts e) (serve b id' w ts e') :=
  sameFuture_engineRun b id id' ts <|
    sameFuture_of_request b id id' (t := requestTurn id w) (t' := requestTurn id' w) rfl rfl rfl rfl rfl hrun hrun'

/-- Settles O36: every clause speaks of phases and outputs after `serve`, which agree. -/
theorem responseIndependentOfHistory : Obligations.ResponseIndependentOfHistory := by
  intro b w id id' e e' hrun hrun'
  have hserve (ts : List Turn) := sameFuture_serve b w id id' ts hrun hrun'
  have hphase (ts : List Turn) := (hserve ts).phase_eq
  have hout (ts : List Turn) := (hserve ts).out_eq
  refine ⟨fun n r => ?_, ?_, hout []⟩
  · simp only [AnswersAfter, hphase, hout]
  · simp only [NeverAnswers, hphase]

end Sys2Proof.Machine
end

section
/-! SUPPORT. The engines right after reset (R27, R136). -/

namespace Sys2Proof.Machine

/-- There is at least one engine, whatever the open number is (R5). -/
theorem reset_engines_ne_nil : State.reset.engines ≠ [] := by
  simp [State.reset, Config.nEngines]

theorem eq_engineReset_of_mem_reset {e : Engine} (h : e ∈ State.reset.engines) : e = Engine.reset :=
  List.eq_of_mem_replicate h

/-- Settles O41: every engine is `Engine.reset`, and the outputs follow from its phase. -/
theorem resetLeavesEnginesIdle : Obligations.ResetLeavesEnginesIdle := by
  refine ⟨reset_engines_ne_nil, resetWith_schedule _ _, fun e he => ?_⟩
  have hidle : e.phase = .idle := eq_engineReset_of_mem_reset he ▸ engineReset_phase
  exact ⟨hidle, ready_of_idle hidle, done_of_idle hidle, out_of_idle hidle⟩

end Sys2Proof.Machine
end

section
/-! SUPPORT. The machine's step as the engine step of the engine whose turn it is: what it writes and what it leaves unchanged
(R37, R43, R126), and schedules of several engines. -/

namespace Sys2Proof.Machine

/-! ### The state after a turn -/
section AfterTurn
variable (s : State) (t : Turn) (e : Engine)

@[simp] theorem afterTurn_build : (s.afterTurn t e).build = s.build := rfl
@[simp] theorem afterTurn_cur : (s.afterTurn t e).cur = t.engine := rfl
@[simp] theorem afterTurn_schedule : (s.afterTurn t e).schedule = s.schedule.tail := rfl
@[simp] theorem afterTurn_engines : (s.afterTurn t e).engines = s.engines.set t.engine e := rfl

end AfterTurn

/-! ### One step -/

/-- Whichever rule of R91 to R97 a turn selects, it is `engineStep` applied to the current engine. -/
theorem takeTurn_eq_onCurrent (t : Turn) (s : State) :
    takeTurn t s = onCurrent (fun id e => engineStep s.build id t e) s := by
  cases hrst : t.rst with
  | true => simp [takeTurn, engineStep, hrst, resetStep]
  | false =>
    cases hstart : t.start with
    | false => simp [takeTurn, engineStep, hrst, hstart, quietStep]
    | true =>
      cases hdec : decode t.req with
      | ok i => cases i; simp [takeTurn, engineStep, hrst, hstart, hdec, exec_recover]
      | error r => simp [takeTurn, engineStep, hrst, hstart, hdec, rejectRequest]

section Step
variable {s s' : State} {e : Engine}

/-- A step whose engine is there completes, with that engine's own step (R115). -/
theorem step_of_some (h : s.engines[s.nextTurn.engine]? = some e) :
    step s = .next (s.afterTurn s.nextTurn (engineStep s.build s.nextTurn.engine s.nextTurn e)) := by
  rw [step, takeTurn_eq_onCurrent]
  exact onCurrent_of_some h

/-- Everything a completed step has done. -/
theorem step_next (h : step s = .next s') :
    ∃ e, s.engines[s.nextTurn.engine]? = some e ∧
      s' = s.afterTurn s.nextTurn (engineStep s.build s.nextTurn.engine s.nextTurn e) := by
  rw [step, takeTurn_eq_onCurrent] at h
  exact onCurrent_next h

theorem step_next_build (h : step s = .next s') : s'.build = s.build := by
  obtain ⟨e, -, rfl⟩ := step_next h
  exact afterTurn_build _ _ _

theorem step_next_schedule (h : step s = .next s') : s'.schedule = s.schedule.tail := by
  obtain ⟨e, -, rfl⟩ := step_next h
  exact afterTurn_schedule _ _ _

/-- No engine comes or goes (R126). -/
theorem step_next_length (h : step s = .next s') : s'.engines.length = s.engines.length := by
  obtain ⟨e, -, rfl⟩ := step_next h
  rw [afterTurn_engines, List.length_set]

/-- An engine whose turn it is not keeps its state (R126). -/
theorem step_next_other (h : step s = .next s') {j : Nat} (hj : j ≠ s.nextTurn.engine) :
    s'.engines[j]? = s.engines[j]? := by
  obtain ⟨e, -, rfl⟩ := step_next h
  rw [afterTurn_engines, List.getElem?_set_ne hj.symm]

/-- The engine whose turn it is takes its own step, which reads no other engine (R126). -/
theorem step_next_self (h : step s = .next s') (he : s.engines[s.nextTurn.engine]? = some e) :
    s'.engines[s.nextTurn.engine]? = some (engineStep s.build s.nextTurn.engine s.nextTurn e) := by
  cases (step_of_some he).symm.trans h
  have hthere : s.nextTurn.engine < s.engines.length := (List.getElem?_eq_some_iff.mp he).1
  rw [afterTurn_engines, List.getElem?_set_self hthere]

end Step

/-- Settles O37: a completed step is `afterTurn`, which replaces one engine and uses up one row. -/
theorem stepWritesOneEngine : Obligations.StepWritesOneEngine := by
  intro s s' h
  have hbuild : s'.build = s.build := step_next_build h
  exact ⟨hbuild, step_next_length h, step_next_schedule h, fun j hj => step_next_other h hj,
    fun p => by rw [hbuild], fun p k => by rw [hbuild]⟩

/-! ### Schedules -/

theorem runSteps_succ_of_next {s s' : State} (h : step s = .next s') (n : Nat) : runSteps (n + 1) s = runSteps n s' := by
  simp only [runSteps, h]

/-- One step seen from engine `j`: it runs through the row used up if that row is its own, and through nothing otherwise. -/
theorem step_next_engineRun {s s' : State} (h : step s = .next s') {j : Nat} {e : Engine} (he : s.engines[j]? = some e) :
    s'.engines[j]? = some (engineRun s.build j ([s.nextTurn].filter fun t => t.engine == j) e) := by
  by_cases hj : s.nextTurn.engine = j
  · subst hj
    simpa [engineRun] using step_next_self h he
  · simpa [engineRun, hj] using (step_next_other h (Ne.symm hj)).trans he

/-- An engine's run through its own rows of a schedule goes through the first row, then through the others. -/
theorem engineRun_filter_cons (b : Build) (j : Nat) (p : Turn → Bool) (t : Turn) (ts : List Turn) (e : Engine) :
    engineRun b j ((t :: ts).filter p) e = engineRun b j (ts.filter p) (engineRun b j ([t].filter p) e) := by
  rw [← List.singleton_append, List.filter_append]
  exact List.foldl_append

/-- Settles O38, by induction on the schedule: each row's step is its engine's own, and every other engine waits. -/
theorem enginesRunIndependently : Obligations.EnginesRunIndependently := by
  intro s ts
  induction ts generalizing s with
  | nil => exact fun rest hsched _ => ⟨s, rfl, rfl, hsched, fun j e he => he⟩
  | cons t ts ih =>
    intro rest hsched hthere
    have hturn : s.nextTurn = t := nextTurn_cons hsched
    obtain ⟨hhead, htail⟩ := List.forall_mem_cons.mp hthere
    have hcur : s.engines[s.nextTurn.engine]? = some (s.engines[t.engine]'hhead) := by
      rw [hturn]; exact List.getElem?_eq_getElem hhead
    obtain ⟨s₁, hstep⟩ : ∃ s₁, step s = .next s₁ := ⟨_, step_of_some hcur⟩
    have hbuild₁ : s₁.build = s.build := step_next_build hstep
    have hsched₁ : s₁.schedule = ts ++ rest := by rw [step_next_schedule hstep, hsched]; rfl
    have hthere₁ : ∀ u ∈ ts, u.engine < s₁.engines.length := by rwa [step_next_length hstep]
    obtain ⟨s', hrun, hbuild, hrest, hengines⟩ := ih s₁ rest hsched₁ hthere₁
    refine ⟨s', (runSteps_succ_of_next hstep ts.length).trans hrun, hbuild.trans hbuild₁, hrest, fun j e he => ?_⟩
    have hfirst := step_next_engineRun hstep he
    rw [hengines j _ hfirst, hturn, hbuild₁, ← engineRun_filter_cons]

end Sys2Proof.Machine
end

section
/-! SUPPORT. The decoder and the encoder of request words (R45 to R50, R54, R55, R57): the two fields of a word, what each kind of
index decodes to, and the words of a call and of a listing line. -/

namespace Sys2Proof

/-! ### The fields of a word -/

@[simp] theorem indexField_encode (idx : BitVec 8) (obs : BitVec 24) : indexField (encode (.recover idx obs)) = idx :=
  BitVec.extractLsb'_append_eq_left

@[simp] theorem obsField_encode (idx : BitVec 8) (obs : BitVec 24) : obsField (encode (.recover idx obs)) = obs :=
  BitVec.extractLsb'_append_eq_right

/-- A word is nothing but its two fields (R45). -/
theorem encode_fields (w : Request) : encode (.recover (indexField w) (obsField w)) = w := by
  apply BitVec.eq_of_getLsbD_eq
  intro i hi
  simp only [encode, indexField, obsField, BitVec.getLsbD_append, BitVec.getLsbD_extractLsb']
  by_cases hlow : i < 24
  · simp [hlow]
  · have hhigh : i - 24 < 8 := by omega
    have hsum : 24 + (i - 24) = i := by omega
    simp [hlow, hhigh, hsum]

/-! ### The decoder -/

theorem wellFormed_recover_iff (idx : BitVec 8) (obs : BitVec 24) : (Instr.recover idx obs).wellFormed = true ↔ idx ≤ 3#8 :=
  decide_eq_true_iff

/-- A legal index: the instruction is the word's two fields (R46). -/
theorem decode_of_legal {w : Request} (h : indexField w ≤ 3#8) : decode w = .ok (.recover (indexField w) (obsField w)) :=
  if_pos ((wellFormed_recover_iff _ _).mpr h)

/-- Any other index is refused, whatever `OBS` is (R48). -/
theorem decode_of_illegal {w : Request} (h : ¬ indexField w ≤ 3#8) : decode w = .error (.badIndex (indexField w)) :=
  if_neg (mt (wellFormed_recover_iff _ _).mp h)

/-- The decoder answers exactly when the index is legal, and then with the word's two fields (R48, R50). -/
theorem decode_eq_ok_iff {w : Request} {i : Instr} :
    decode w = .ok i ↔ indexField w ≤ 3#8 ∧ i = .recover (indexField w) (obsField w) := by
  by_cases h : indexField w ≤ 3#8
  · simp [decode_of_legal h, h, eq_comm]
  · simp [decode_of_illegal h, h]

theorem decode_encode_of_legal {idx : BitVec 8} (h : idx ≤ 3#8) (obs : BitVec 24) :
    decode (encode (.recover idx obs)) = .ok (.recover idx obs) := by
  rw [decode_of_legal (by rwa [indexField_encode]), indexField_encode, obsField_encode]

theorem decode_encode_of_illegal {idx : BitVec 8} (h : ¬ idx ≤ 3#8) (obs : BitVec 24) :
    decode (encode (.recover idx obs)) = .error (.badIndex idx) := by
  rw [decode_of_illegal (by rwa [indexField_encode]), indexField_encode]

/-! ### The table's mask -/

/-- The table's mask selects bits 31:26 (R57). -/
theorem tableMask_getLsbD : ∀ i < 32, (0xFC000000#32).getLsbD i = decide (26 ≤ i) := by decide

/-- A word that matches the table's row has no bit from 26 up. -/
theorem toNat_lt_of_and_tableMask {w : Request} (h : w &&& 0xFC000000#32 = 0#32) : w.toNat < 2 ^ 26 := by
  refine Nat.lt_pow_two_of_testBit _ fun i hi => ?_
  change w.getLsbD i = false
  by_cases h32 : i < 32
  · simpa [tableMask_getLsbD i h32, hi] using congrArg (·.getLsbD i) h
  · exact BitVec.getLsbD_of_ge w i (by omega)

/-- The index is legal exactly for the words of the table's row (R48, R57). -/
theorem indexField_le_three_iff (w : Request) : indexField w ≤ 3#8 ↔ w &&& 0xFC000000#32 = 0#32 := by
  constructor
  · intro h
    have hmatch := Laws.EncodeMatchesTable.recover (indexField w) (obsField w) ((wellFormed_recover_iff _ _).mpr h)
    rwa [encode_fields] at hmatch
  · intro h
    have hw : w.toNat < 2 ^ 26 := toNat_lt_of_and_tableMask h
    rw [BitVec.le_def, indexField, BitVec.extractLsb'_toNat, Nat.shiftRight_eq_div_pow]
    simp only [BitVec.toNat_ofNat]
    omega

/-- Settles O1: the decoder reads the two fields of the word, and the index is legal exactly under the table's mask. -/
theorem decodeEncodeAgree : Obligations.DecodeEncodeAgree := by
  refine ⟨?_, ?_, ?_, ?_⟩
  · rintro ⟨idx, obs⟩ hwf
    exact decode_encode_of_legal ((wellFormed_recover_iff idx obs).mp hwf) obs
  · intro w i hdec
    obtain ⟨hidx, rfl⟩ := decode_eq_ok_iff.mp hdec
    exact ⟨(wellFormed_recover_iff _ _).mpr hidx, encode_fields w⟩
  · intro w
    rw [← indexField_le_three_iff]
    exact ⟨fun ⟨i, hdec⟩ => (decode_eq_ok_iff.mp hdec).1, fun hidx => ⟨_, decode_of_legal hidx⟩⟩
  · intro w hmask
    exact decode_of_illegal (mt (indexField_le_three_iff w).mp hmask)

/-- Settles O2, by evaluating the decoder on the six words. -/
theorem decodeOfWrittenWords : Obligations.DecodeOfWrittenWords := by
  unfold Obligations.DecodeOfWrittenWords
  decide

/-! ### The words of a call and of a listing line -/

/-- An index that fits the field is presented as it is (R54). -/
theorem callRequest_of_mem {p : Int} (h0 : 0 ≤ p) (h255 : p ≤ 255) (obs : Nat) :
    callRequest p obs = encode (.recover (BitVec.ofNat 8 p.toNat) (BitVec.ofNat 24 obs)) := by
  simp [callRequest, h0, h255]

/-- Any other index is presented as 255 (R54). -/
theorem callRequest_of_not_mem {p : Int} (h : ¬ (0 ≤ p ∧ p ≤ 255)) (obs : Nat) :
    callRequest p obs = encode (.recover 255#8 (BitVec.ofNat 24 obs)) := by
  simp only [callRequest, if_neg h]

/-- On indices that fit the field, the decoder's bound is the integers'. -/
theorem ofNat_le_three_iff {n : Nat} (h : n ≤ 255) : BitVec.ofNat 8 n ≤ 3#8 ↔ n ≤ 3 := by
  rw [BitVec.le_def, BitVec.toNat_ofNat, BitVec.toNat_ofNat, Nat.mod_eq_of_lt (by omega)]

/-- A listing line's shift and or put the two operands side by side (R55). -/
theorem assemble_eq_encode (p : BitVec 8) (obs : Nat) : assemble p obs = encode (.recover p (BitVec.ofNat 24 obs)) := by
  have hmask : ∀ i < 32, (0xFFFFFF#32).getLsbD i = decide (i < 24) := by decide
  apply BitVec.eq_of_getLsbD_eq
  intro i hi
  simp only [assemble, encode, BitVec.getLsbD_or, BitVec.getLsbD_and, BitVec.getLsbD_shiftLeft, BitVec.getLsbD_setWidth,
    BitVec.getLsbD_append, BitVec.getLsbD_ofNat, hmask i hi]
  by_cases hlow : i < 24
  · simp [hlow, hi]
  · have hhigh : i - 24 < 32 := by omega
    simp [hlow, hi, hhigh]

/-- Settles O3: by the three ranges of the index. -/
theorem callRequestBinding : Obligations.CallRequestBinding := by
  refine ⟨?_, ?_, ?_, assemble_eq_encode⟩
  · intro p obs hp
    rw [callRequest_of_mem (by omega) (by omega), Int.toNat_natCast]
    exact decode_encode_of_legal ((ofNat_le_three_iff (by omega)).mpr hp) _
  · intro p obs hlo hhi
    rw [callRequest_of_mem (by omega) hhi]
    exact decode_encode_of_illegal (mt (ofNat_le_three_iff (by omega)).mp (by omega)) _
  · intro p obs hp
    rw [callRequest_of_not_mem (by omega)]
    exact decode_encode_of_illegal (by decide) _

end Sys2Proof
end

section
/-! SUPPORT. The invariant of the machine (R93, R101, R107, R115): each rule of the engine step keeps it. -/

namespace Sys2Proof.Machine

/-! ### Offsets and counts without wrap -/

/-- No offset exceeds that of the last entry (R79). -/
theorem offset_le_offset_last (b : Build) (k : EntryIndex) : offset b k ≤ offset b 15#4 := by
  have hk : k.toNat ≤ 15 := by omega
  exact Nat.sub_le_sub_right (Nat.mul_le_mul_right ckptSpacing hk) _

theorem offset_last_le (b : Build) : offset b 15#4 ≤ 15 * ckptSpacing := Nat.sub_le _ _

theorem offset_le (b : Build) (k : EntryIndex) : offset b k ≤ 15 * ckptSpacing :=
  (offset_le_offset_last b k).trans (offset_last_le b)

/-- Below the greatest admissible cap the increment does not wrap (R107). -/
theorem countIncrement_toNat {cnt : Count} (h : cnt.toNat < iterCapMax) : (countIncrement cnt).toNat = cnt.toNat + 1 := by
  have hcnt : cnt.toNat < 2 ^ 31 := h
  simp only [countIncrement, BitVec.toNat_add, BitVec.toNat_ofNat]
  omega

/-- Nor does the adjusted count of a hit (R80, R107). -/
theorem shortcutCount_toNat (b : Build) (k : EntryIndex) {cnt : Count} (h : cnt.toNat < iterCapMax) :
    (shortcutCount b k cnt).toNat = cnt.toNat + 1 + offset b k := by
  have hcnt : cnt.toNat < 2 ^ 31 := h
  have hoff : offset b k ≤ 15 * 8192 := offset_le b k
  simp only [shortcutCount, BitVec.toNat_add, countIncrement_toNat h, BitVec.toNat_ofNat]
  omega

/-- A count within the range of a capped run is not `ERR_RESULT` (R101). -/
theorem ne_errResult_of_le {b : Build} {c : Nat} {cnt : Count} (hc : c ≤ iterCapMax) (h : cnt.toNat ≤ c + offset b 15#4) :
    cnt ≠ errResult := by
  rintro rfl
  have hcap : c ≤ 2 ^ 31 := hc
  have hoff : offset b 15#4 ≤ 15 * 8192 := offset_last_le b
  have herr : errResult.toNat = 0xFFFFFFFF := rfl
  omega

/-! ### The engine's invariant by phase -/
section ByPhase
variable {b : Build} {e : Engine}

theorem engineInv_of_run (h : e.phase = .run) (hinv : RunInv b e) : EngineInv b e :=
  ⟨fun _ => hinv, fun hdone => by simp [h] at hdone⟩

theorem engineInv_of_done (h : e.phase = .done) (hinv : DoneInv b e) : EngineInv b e :=
  ⟨fun hrun => by simp [h] at hrun, fun _ => hinv⟩

/-- A loaded request has made no iteration. -/
theorem engineInv_load (b : Build) (id : Nat) (idx : BitVec 8) (obs : BitVec 24) (e : Engine) :
    EngineInv b (load id idx obs e) :=
  engineInv_of_run (load_phase ..) fun c _ => .inl (Nat.zero_le c)

theorem engineInv_raise_badIndex (b : Build) (e : Engine) : EngineInv b (raise .badIndex e) :=
  engineInv_of_done (raise_phase ..) (.inr (.inl ⟨rfl, rfl⟩))

/-- In RUN, `CNT` is in the range of R101 whether or not a shortcut was taken. -/
theorem RunInv.cnt_le (hinv : RunInv b e) {c : Nat} (hc : b.iterCap = some c) : e.cnt.toNat ≤ c + offset b 15#4 := by
  rcases hinv c hc with hle | ⟨-, hle⟩
  · omega
  · exact hle

/-- Without the seed entry in `BUF` no shortcut was taken. -/
theorem RunInv.cnt_le_cap (hinv : RunInv b e) (hseed : e.buf ≠ ckptRead b e.sel 0#4) {c : Nat} (hc : b.iterCap = some c) :
    e.cnt.toNat ≤ c :=
  (hinv c hc).resolve_right fun h => hseed h.1

/-- RETIRE answers with a count in range (R92, R101). -/
theorem engineInv_retire (hcap : b.CapAdmissible) (hinv : RunInv b e) (hseed : e.buf = ckptRead b e.sel 0#4) :
    EngineInv b (retire e) := by
  refine engineInv_of_done (retire_phase e) (.inl ⟨rfl, rfl, hseed, fun c hc => ?_⟩)
  have hle : e.cnt.toNat ≤ c + offset b 15#4 := hinv.cnt_le hc
  exact ⟨hle, ne_errResult_of_le ((capAdmissible_iff b).mp hcap c hc).2 hle⟩

/-- The cap is reached from below, so that NOT_FOUND comes at exactly `ITER_CAP` iterations (R93). -/
theorem engineInv_raise_notFound (hinv : RunInv b e) (hseed : e.buf ≠ ckptRead b e.sel 0#4)
    (hreached : capReached b e.cnt = true) : EngineInv b (raise .notFound e) := by
  obtain ⟨c, hc, hle⟩ := (capReached_iff b e.cnt).mp hreached
  have hexact : c = e.cnt.toNat := le_antisymm hle (hinv.cnt_le_cap hseed hc)
  exact engineInv_of_done (raise_phase ..) (.inr (.inr ⟨rfl, rfl, hexact ▸ hc⟩))

/-- An iteration below the cap counts up to the cap, or takes a shortcut to the seed entry (R94, R107). -/
theorem runInv_iterate (hcap : b.CapAdmissible) (hnot : capReached b e.cnt = false) : RunInv b (iterate b e) := by
  intro c hc
  have hlt : e.cnt.toNat < c := by
    by_contra hge
    simp [(capReached_iff b e.cnt).mpr ⟨c, hc, not_lt.mp hge⟩] at hnot
  have hmax : e.cnt.toNat < iterCapMax := hlt.trans_le ((capAdmissible_iff b).mp hcap c hc).2
  rcases iterate_cases b e with ⟨k, -, heq⟩ | ⟨-, heq⟩ <;> rw [heq]
  · refine .inr ⟨rfl, ?_⟩
    have hoff : offset b k ≤ offset b 15#4 := offset_le_offset_last b k
    rw [shortcutCount_toNat b k hmax]
    omega
  · refine .inl ?_
    rw [countIncrement_toNat hmax]
    omega

/-- The three ends of a run step (R92 to R94). -/
theorem engineInv_runStep (hcap : b.CapAdmissible) (hrun : e.phase = .run) (hinv : RunInv b e) :
    EngineInv b (runStep b e) := by
  have hne (h : seedTest b e.sel e.buf = false) : e.buf ≠ ckptRead b e.sel 0#4 :=
    fun heq => by simp [(seedTest_iff b e.sel e.buf).mpr heq] at h
  rcases runStep_cases b e with ⟨hseed, heq⟩ | ⟨hseed, hreached, heq⟩ | ⟨-, hnot, heq⟩ <;> rw [heq]
  · exact engineInv_retire hcap hinv ((seedTest_iff b e.sel e.buf).mp hseed)
  · exact engineInv_raise_notFound hinv (hne hseed) hreached
  · exact engineInv_of_run ((iterate_phase b e).trans hrun) (runInv_iterate hcap hnot)

/-- Every rule of R91 to R97 keeps the invariant of the engine that steps. -/
theorem engineInv_engineStep (hcap : b.CapAdmissible) (id : Nat) (t : Turn) (h : EngineInv b e) :
    EngineInv b (engineStep b id t e) := by
  cases hrst : t.rst with
  | true =>
    rw [engineStep_of_rst hrst]
    exact engineInv_of_idle b (resetEngine_phase id e)
  | false =>
    by_cases hrun : e.phase = .run
    · rw [engineStep_of_run hrst hrun]
      exact engineInv_runStep hcap hrun (h.1 hrun)
    · cases hstart : t.start with
      | false => rwa [engineStep_of_quiet hrst hstart hrun]
      | true =>
        cases hdec : decode t.req with
        | ok i =>
          obtain ⟨idx, obs⟩ := i
          rw [engineStep_of_legal hrst hstart hdec hrun]
          exact engineInv_load b id idx obs e
        | error r =>
          rw [engineStep_of_illegal hrst hstart hdec hrun]
          exact engineInv_raise_badIndex b e

end ByPhase

/-- Settles O39: a step replaces one engine by its own step, which keeps the engine's invariant. -/
theorem stepKeepsInvariant : Obligations.StepKeepsInvariant := by
  rintro s s' ⟨hne, hcap, hengines⟩ hstep
  obtain ⟨e, he, rfl⟩ := step_next hstep
  refine ⟨by simpa using hne, hcap, fun e' he' => ?_⟩
  rcases List.mem_or_eq_of_mem_set he' with hold | rfl
  · exact hengines e' hold
  · exact engineInv_engineStep hcap _ _ (hengines e (List.mem_of_getElem? he))

end Sys2Proof.Machine
end

section
/-! SUPPORT. Only bits 15:0 of a tap mask have an effect (R72): a machine whose Polynomial Table differs elsewhere takes the same
steps. -/

namespace Sys2Proof

/-- The build with another Polynomial Table. -/
def Build.withPoly (b : Build) (poly : Vector TapMask 4) : Build := { b with poly := poly }

end Sys2Proof

namespace Sys2Proof.Machine

/-- Bit 16 of `sh` is 0, so that bit 16 of the mask is never seen (R62, R63, R72). -/
theorem maskTaps_shiftDown_congr {M M' : TapMask} (h : M.extractLsb' 0 16 = M'.extractLsb' 0 16) (x : RegState) :
    maskTaps M (shiftDown x) = maskTaps M' (shiftDown x) := by
  apply BitVec.eq_of_getLsbD_eq
  intro i hi
  simp only [maskTaps, BitVec.getLsbD_and, shiftDown_getLsbD, BitVec.getLsbD_extractLsb', hi, Nat.zero_add]
  by_cases h16 : i < 16
  · have hbit := congrArg (·.getLsbD i) h
    simp only [BitVec.getLsbD_extractLsb', h16, Nat.zero_add] at hbit
    rw [hbit]
  · simp [h16]

/-- The reverse step reads bits 15:0 of the mask (R72). -/
theorem revStep_congr_taps {M M' : TapMask} (h : M.extractLsb' 0 16 = M'.extractLsb' 0 16) (x : RegState) :
    revStep M x = revStep M' x := by
  simp only [revStep, maskTaps_shiftDown_congr h]

/-- The forward transition reads bits 15:0 of the mask (R69). -/
theorem fwdStep_congr_taps {M M' : TapMask} (h : M.extractLsb' 0 16 = M'.extractLsb' 0 16) (x : RegState) :
    fwdStep M x = fwdStep M' x := by
  simp only [fwdStep, h]

/-- The seed shifts out to 0, where no mask has a tap: the bit shifted out alone is inserted at the top (R53). -/
theorem revStep_seed (M : TapMask) : revStep M seed = 0x10000#17 := by
  have hshift : shiftDown seed = 0#17 := by decide
  have hmasked : maskTaps M 0#17 = 0#17 := BitVec.zero_and
  simp only [revStep, hshift, hmasked, parity_zero]
  decide

section WithPoly
variable {b : Build} {poly : Vector TapMask 4}
  (htaps : ∀ p, (polyRead (b.withPoly poly) p).extractLsb' 0 16 = (polyRead b p).extractLsb' 0 16)
include htaps

/-- An iteration reads the Polynomial Table through the reverse step alone (R94). -/
theorem iterate_withPoly (e : Engine) : iterate (b.withPoly poly) e = iterate b e := by
  have hrev : revStep (polyRead (b.withPoly poly) e.sel) e.buf = revStep (polyRead b e.sel) e.buf :=
    revStep_congr_taps (htaps e.sel) e.buf
  have hckcmp : ckcmp (b.withPoly poly) e.sel (revStep (polyRead (b.withPoly poly) e.sel) e.buf) =
      ckcmp b e.sel (revStep (polyRead b e.sel) e.buf) := congrArg (ckcmp b e.sel) hrev
  cases hit : ckcmp b e.sel (revStep (polyRead b e.sel) e.buf) with
  | none => rw [iterate_of_noHit hit, iterate_of_noHit (hckcmp.trans hit), hrev]
  | some k =>
    rw [iterate_of_hit hit, iterate_of_hit (hckcmp.trans hit)]
    rfl

/-- The two tests before it do not read it (R92, R93). -/
theorem runStep_withPoly (e : Engine) : runStep (b.withPoly poly) e = runStep b e := by
  have hseed : seedTest (b.withPoly poly) e.sel e.buf = seedTest b e.sel e.buf := rfl
  have hcap : capReached (b.withPoly poly) e.cnt = capReached b e.cnt := rfl
  simp only [runStep, hseed, hcap, iterate_withPoly htaps]

end WithPoly

/-- Of all the rules, only those of a run step read the build (R91 to R97). -/
theorem engineStep_congr_runStep {b b' : Build} {e : Engine} (h : runStep b' e = runStep b e) (id : Nat) (t : Turn) :
    engineStep b' id t e = engineStep b id t e := by
  cases hrst : t.rst with
  | true => rw [engineStep_of_rst hrst, engineStep_of_rst hrst]
  | false =>
    by_cases hrun : e.phase = .run
    · rw [engineStep_of_run hrst hrun, engineStep_of_run hrst hrun, h]
    · cases hstart : t.start with
      | false => rw [engineStep_of_quiet hrst hstart hrun, engineStep_of_quiet hrst hstart hrun]
      | true =>
        cases hdec : decode t.req with
        | ok i =>
          obtain ⟨idx, obs⟩ := i
          rw [engineStep_of_legal hrst hstart hdec hrun, engineStep_of_legal hrst hstart hdec hrun]
        | error r => rw [engineStep_of_illegal hrst hstart hdec hrun, engineStep_of_illegal hrst hstart hdec hrun]

/-- The machine reads its build in the engine step alone. -/
theorem step_next_withBuild {s s' : State} {b' : Build} (hstep : step s = .next s')
    (hengine : ∀ id t e, engineStep b' id t e = engineStep s.build id t e) :
    step { s with build := b' } = .next { s' with build := b' } := by
  obtain ⟨e, he, rfl⟩ := step_next hstep
  rw [← hengine]
  exact step_of_some (s := { s with build := b' }) he

/-- Settles O8: the machine reads a mask in the reverse step alone, and the reverse step reads its bits 15:0. -/
theorem effectiveTaps : Obligations.EffectiveTaps := by
  refine ⟨fun M M' x h => ⟨revStep_congr_taps h x, fwdStep_congr_taps h x⟩, revStep_seed, ?_⟩
  rintro s s' ⟨poly, ckpt, ckptBias, iterCap⟩ rfl rfl rfl htaps hstep
  exact step_next_withBuild hstep fun id t e => engineStep_congr_runStep (runStep_withPoly htaps e) id t

end Sys2Proof.Machine
end

section
/-! SUPPORT. The machine's step and its outputs as statements of their own: the engine step (R50, R84, R115), the illegal request
(R48, R116) and the phase codes (R52). -/

namespace Sys2Proof.Machine

/-- A turn for an engine that is not there (log 12). -/
theorem step_of_none {s : State} (h : s.engines[s.nextTurn.engine]? = none) :
    step s = .fault (.noSuchEngine s.nextTurn.engine) := by
  rw [step, takeTurn_eq_onCurrent]
  exact onCurrent_of_none h

/-- Settles O25: the engine of the turn is there or it is not. -/
theorem stepIsEngineStep : Obligations.StepIsEngineStep := by
  intro s
  refine ⟨fun e he => step_of_some he, fun hlen => step_of_none (List.getElem?_eq_none hlen), fun r hrefused => ?_⟩
  cases he : s.engines[s.nextTurn.engine]? with
  | none => cases (step_of_none he).symm.trans hrefused
  | some e => cases (step_of_some he).symm.trans hrefused

/-- Settles O17: the decoder refuses the word, and the engine raises BAD_INDEX. -/
theorem illegalRequestEndsBadIndex : Obligations.IllegalRequestEndsBadIndex := by
  rintro s t e ⟨rfl, he⟩ hrst hstart hmask hrun
  have hdec : decode s.nextTurn.req = .error (.badIndex (indexField s.nextTurn.req)) :=
    decode_of_illegal (mt (indexField_le_three_iff s.nextTurn.req).mp hmask)
  rw [step_of_some he, engineStep_of_illegal hrst hstart hdec hrun]
  rfl

/-- Settles O26, phase by phase. -/
theorem outputsByPhase : Obligations.OutputsByPhase := by
  refine ⟨rfl, rfl, rfl, fun e => ?_⟩
  cases h : e.phase with
  | idle => simp [ready, done, out_of_idle h, h, Phase.code]
  | run => simp [ready, done, out_of_run h, h, Phase.code]
  | done => simp [ready, done, out_of_done h, h, Phase.code]

end Sys2Proof.Machine
end

section
/-! SUPPORT. The reverse step in its closed form (R67) and as the inverse of the forward transition (R69, R70); the all-zero buffer and
the bound on a period that follow (R71). -/

namespace Sys2Proof.Machine

/-! ### Parity and zero extension -/

/-- Zero extension adds nothing to the parity (R63, R64). -/
theorem parity_setWidth {k w : Nat} (h : k ≤ w) (v : BitVec k) : parity (v.setWidth w) = parity v := by
  induction w, h using Nat.le_induction with
  | base => rw [BitVec.setWidth_eq]
  | succ w hw ih =>
    have htop : (v.setWidth (w + 1)).getLsbD w = false := by
      simp [BitVec.getLsbD_of_ge v w hw]
    have hlow : (v.setWidth (w + 1)).extractLsb' 0 w = v.setWidth w := by
      apply BitVec.eq_of_getLsbD_eq
      intro i hi
      simp [hi, Nat.lt_succ_of_lt hi]
    rw [parity_of_top_false _ htop, hlow, ih]

/-! ### The closed form -/

/-- `sh` is `B[16:1]` with a 0 on top (R62). -/
theorem shiftDown_extract_low (B : RegState) : (shiftDown B).extractLsb' 0 16 = B.extractLsb' 1 16 := by
  apply BitVec.eq_of_getLsbD_eq
  intro i hi
  simp [shiftDown_getLsbD, hi, Nat.add_comm]

/-- Bit 16 of `masked` is 0, so that `masked` is a 16-bit value (R63). -/
theorem maskTaps_shiftDown (M : TapMask) (B : RegState) :
    maskTaps M (shiftDown B) = (B.extractLsb' 1 16 &&& M.extractLsb' 0 16).setWidth 17 := by
  apply BitVec.eq_of_getLsbD_eq
  intro i hi
  simp only [maskTaps, BitVec.getLsbD_and, BitVec.getLsbD_setWidth, shiftDown_getLsbD, BitVec.getLsbD_extractLsb', hi,
    Nat.zero_add, Nat.add_comm 1 i]
  by_cases h16 : i < 16 <;> simp [h16]

/-- Sub-steps a to f in one (R67). -/
theorem revStep_eq_append (M : TapMask) (B : RegState) :
    revStep M B =
      BitVec.ofBool (xor (B.getLsbD 0) (parity (B.extractLsb' 1 16 &&& M.extractLsb' 0 16))) ++ B.extractLsb' 1 16 := by
  simp only [revStep, insertTop, reinsertBit, feedbackBit, shiftDown_extract_low, maskTaps_shiftDown,
    parity_setWidth (show 16 ≤ 17 by decide), Bool.xor_comm]

/-- Bit i of `Rev(B)` is bit i+1 of `B`, and bit 16 is the bit reinserted (R67). -/
theorem revStep_getLsbD (M : TapMask) (B : RegState) (i : Nat) :
    (revStep M B).getLsbD i =
      if i < 16 then B.getLsbD (i + 1)
      else decide (i = 16) && xor (B.getLsbD 0) (parity (B.extractLsb' 1 16 &&& M.extractLsb' 0 16)) := by
  rw [revStep_eq_append, BitVec.getLsbD_append]
  by_cases h : i < 16
  · simp [h, Nat.add_comm]
  · have h0 : i - 16 = 0 ↔ i = 16 := by omega
    simp [h, BitVec.getLsbD_ofBool, h0]

/-- Settles O5. -/
theorem reverseStepClosedForm : Obligations.ReverseStepClosedForm := fun b p B =>
  ⟨revStep_eq_append (polyRead b p) B, fun i hi => by rw [revStep_getLsbD, if_pos hi]⟩

/-! ### The inverse law -/

/-- `Fwd(C)[16:1] = C[15:0]` (R69). -/
theorem fwdStep_extract_high (M : TapMask) (C : RegState) : (fwdStep M C).extractLsb' 1 16 = C.extractLsb' 0 16 := by
  apply BitVec.eq_of_getLsbD_eq
  intro i hi
  simp [fwdStep_getLsbD, hi, Nat.add_comm 1 i]

/-- `Rev(B)[15:0] = B[16:1]` (R67). -/
theorem revStep_extract_low (M : TapMask) (B : RegState) : (revStep M B).extractLsb' 0 16 = B.extractLsb' 1 16 := by
  apply BitVec.eq_of_getLsbD_eq
  intro i hi
  simp [revStep_getLsbD, hi, Nat.add_comm 1 i]

/-- The parity that `Fwd` put into bit 0 is taken out again (R70). -/
theorem revStep_fwdStep (M : TapMask) (x : RegState) : revStep M (fwdStep M x) = x := by
  apply BitVec.eq_of_getLsbD_eq
  intro i hi
  rw [revStep_getLsbD, fwdStep_extract_high]
  by_cases h : i < 16
  · simp [h, fwdStep_getLsbD]
  · obtain rfl : i = 16 := by omega
    have hfb : (fwdStep M x).getLsbD 0 = xor (x.getLsbD 16) (parity (x.extractLsb' 0 16 &&& M.extractLsb' 0 16)) := by
      rw [fwdStep_getLsbD, if_pos rfl]
    rw [hfb, if_neg h, Bool.xor_assoc, Bool.xor_self, Bool.xor_false, decide_eq_true rfl, Bool.true_and]

/-- The parity that `Rev` put into bit 16 is taken out again (R70). -/
theorem fwdStep_revStep (M : TapMask) (x : RegState) : fwdStep M (revStep M x) = x := by
  apply BitVec.eq_of_getLsbD_eq
  intro i hi
  rw [fwdStep_getLsbD, revStep_extract_low]
  cases i with
  | zero =>
    have htop : (revStep M x).getLsbD 16 = xor (x.getLsbD 0) (parity (x.extractLsb' 1 16 &&& M.extractLsb' 0 16)) := by
      rw [revStep_getLsbD, if_neg (by decide), decide_eq_true rfl, Bool.true_and]
    rw [if_pos rfl, htop, Bool.xor_assoc, Bool.xor_self, Bool.xor_false]
  | succ i =>
    have h : i < 16 := by omega
    simp [h, revStep_getLsbD]

theorem revStep_bijective (M : TapMask) : Function.Bijective (revStep M) :=
  Function.bijective_iff_has_inverse.mpr ⟨fwdStep M, fwdStep_revStep M, revStep_fwdStep M⟩

theorem fwdStep_bijective (M : TapMask) : Function.Bijective (fwdStep M) :=
  Function.bijective_iff_has_inverse.mpr ⟨revStep M, revStep_fwdStep M, fwdStep_revStep M⟩

/-- Settles O6. -/
theorem reverseAndForwardAreInverse : Obligations.ReverseAndForwardAreInverse := fun M =>
  ⟨revStep_fwdStep M, fwdStep_revStep M, revStep_bijective M, fwdStep_bijective M⟩

/-! ### The all-zero buffer and the period -/

theorem seed_ne_zero : seed ≠ 0#17 := by decide

/-- The forward transition is linear (R71). -/
@[simp] theorem fwdStep_zero (M : TapMask) : fwdStep M 0#17 = 0#17 := by
  simpa using fwdStep_xor M 0#17 0#17

@[simp] theorem revStep_zero (M : TapMask) : revStep M 0#17 = 0#17 := by
  simpa using revStep_fwdStep M 0#17

theorem revStep_iterate_zero (M : TapMask) (n : Nat) : (revStep M)^[n] 0#17 = 0#17 :=
  Function.iterate_fixed (revStep_zero M) n

/-- The seed never leads to 0, which leads to itself alone: `Fwd` is injective (R71). -/
theorem fwdStep_iterate_seed_ne_zero (M : TapMask) (d : Nat) : (fwdStep M)^[d] seed ≠ 0#17 := by
  intro h
  have hzero : (fwdStep M)^[d] 0#17 = 0#17 := Function.iterate_fixed (fwdStep_zero M) d
  exact seed_ne_zero ((fwdStep_bijective M).injective.iterate d (h.trans hzero.symm))

/-- The period of R5 is Mathlib's. -/
theorem IsPeriod.minimalPeriod_eq {M : TapMask} {P : Nat} (h : IsPeriod M P) :
    Function.minimalPeriod (fwdStep M) seed = P := by
  obtain ⟨hpos, hper, hleast⟩ := h
  have hperiodic : Function.IsPeriodicPt (fwdStep M) P seed := hper
  refine le_antisymm (hperiodic.minimalPeriod_le hpos) (le_of_not_gt fun hlt => ?_)
  exact hleast _ (hperiodic.minimalPeriod_pos hpos) hlt Function.iterate_minimalPeriod

/-- The values of one period are different and none is 0 (R71). -/
theorem IsPeriod.le {M : TapMask} {P : Nat} (h : IsPeriod M P) : P ≤ 2 ^ 17 - 1 := by
  have hmaps : Set.MapsTo (fun n => ((fwdStep M)^[n] seed).toNat) (Finset.range P) (Finset.Ico 1 (2 ^ 17)) := by
    intro n _
    have hne : ((fwdStep M)^[n] seed).toNat ≠ 0 := fun h0 =>
      fwdStep_iterate_seed_ne_zero M n (BitVec.eq_of_toNat_eq h0)
    exact Finset.mem_coe.mpr (Finset.mem_Ico.mpr ⟨Nat.one_le_iff_ne_zero.mpr hne, BitVec.isLt _⟩)
  have hinj : Set.InjOn (fun n => ((fwdStep M)^[n] seed).toNat) (Finset.range P) := by
    intro i hi j hj hij
    rw [Finset.mem_coe, Finset.mem_range, ← h.minimalPeriod_eq] at hi hj
    exact Function.iterate_injOn_Iio_minimalPeriod hi hj (BitVec.eq_of_toNat_eq hij)
  calc P = (Finset.range P).card := (Finset.card_range P).symm
    _ ≤ (Finset.Ico 1 (2 ^ 17)).card := Finset.card_le_card_of_injOn _ hmaps hinj
    _ = 2 ^ 17 - 1 := Nat.card_Ico ..

/-- Settles O7. -/
theorem zeroBufferIsFixedPoint : Obligations.ZeroBufferIsFixedPoint := by
  refine fun M => ⟨revStep_zero M, fwdStep_zero M, ?_, fun n h => ?_, fun P h => h.le⟩
  · rintro ⟨d, hd⟩
    exact fwdStep_iterate_seed_ne_zero M d hd
  · exact seed_ne_zero (h.symm.trans (revStep_iterate_zero M n))

end Sys2Proof.Machine
end

section
/-! SUPPORT. The 21-bit working buffer (R73): its reverse step is the zero extension of the 17-bit one, and its loop simulates the loop
of R90. -/

namespace Sys2Proof.Machine

/-! ### One reverse step -/

theorem lowView_getLsbD (W : BitVec 21) (i : Nat) : (lowView W).getLsbD i = (decide (i < 17) && W.getLsbD i) := by
  rw [lowView, BitVec.getLsbD_extractLsb', Nat.zero_add]

@[simp] theorem lowView_setWidth (x : RegState) : lowView (x.setWidth 21) = x := by
  apply BitVec.eq_of_getLsbD_eq
  intro i hi
  have h21 : i < 21 := by omega
  simp only [lowView_getLsbD, BitVec.getLsbD_setWidth, hi, h21, decide_true, Bool.true_and]

/-- A zero-extended buffer has nothing in bits 20:17. -/
theorem setWidth_and_highMask (x : RegState) : x.setWidth 21 &&& 0x1E0000#21 = 0#21 := by
  have hmask : ∀ i < 17, (0x1E0000#21).getLsbD i = false := by decide
  apply BitVec.eq_of_getLsbD_eq
  intro i _
  rw [BitVec.getLsbD_and, BitVec.getLsbD_setWidth]
  by_cases h : i < 17
  · simp [hmask i h]
  · simp [BitVec.getLsbD_of_ge x i (not_lt.mp h)]

/-- Sub-step b takes bits 16:1 and clears everything from bit 16 up (R73 (ii)). -/
theorem wide_shiftDown (W : BitVec 21) : (W &&& 0x1FFFE#21) >>> 1 = (shiftDown (lowView W)).setWidth 21 := by
  have hmask : ∀ i < 21, (0x1FFFE#21).getLsbD (1 + i) = decide (i < 16) := by decide
  apply BitVec.eq_of_getLsbD_eq
  intro i hi
  rw [BitVec.getLsbD_ushiftRight, BitVec.getLsbD_and, hmask i hi, BitVec.getLsbD_setWidth, shiftDown_getLsbD, lowView_getLsbD]
  by_cases h16 : i < 16
  · have h17 : i + 1 < 17 := by omega
    simp [hi, h16, h17, Nat.add_comm]
  · simp [h16]

/-- The mask at its full width selects no more taps (R63). -/
theorem wide_maskTaps (M : TapMask) (sh : RegState) : sh.setWidth 21 &&& M = (maskTaps M sh).setWidth 21 := by
  apply BitVec.eq_of_getLsbD_eq
  intro i hi
  simp only [maskTaps, BitVec.getLsbD_and, BitVec.getLsbD_setWidth, BitVec.getLsbD_extractLsb', hi, Nat.zero_add]
  by_cases h17 : i < 17
  · simp [h17]
  · simp [h17, BitVec.getLsbD_of_ge sh i (not_lt.mp h17)]

/-- Sub-step f inserts at bit 16 (R66). -/
theorem wide_insertTop (r : Bool) (sh : RegState) :
    (sh.setWidth 21 &&& 0x0FFFF#21) ||| ((BitVec.ofBool r).setWidth 21 <<< 16) = (insertTop r sh).setWidth 21 := by
  have hmask : ∀ i < 21, (0x0FFFF#21).getLsbD i = decide (i < 16) := by decide
  apply BitVec.eq_of_getLsbD_eq
  intro i hi
  simp only [BitVec.getLsbD_or, BitVec.getLsbD_and, BitVec.getLsbD_setWidth, BitVec.getLsbD_shiftLeft, hmask i hi,
    insertTop_getLsbD, hi]
  by_cases h16 : i < 16
  · simp [h16]
  · have h0 : i - 16 = 0 ↔ i = 16 := by omega
    have hlt : i - 16 < 21 := by omega
    simp [h16, BitVec.getLsbD_ofBool, h0, hlt]

/-- PDB's steps a to f on 21 bits give the 17-bit step's value with zeros above it (R73). -/
theorem wideRevStep_eq (M : TapMask) (W : BitVec 21) : wideRevStep M W = (revStep M (lowView W)).setWidth 21 := by
  have hfb : feedbackBit (lowView W) = W.getLsbD 0 := lowView_getLsbD W 0
  simp only [wideRevStep, revStep, wide_shiftDown, wide_insertTop, wide_maskTaps M,
    parity_setWidth (show 17 ≤ 21 by decide), hfb]

theorem lowView_wideRevStep (M : TapMask) (W : BitVec 21) : lowView (wideRevStep M W) = revStep M (lowView W) := by
  rw [wideRevStep_eq, lowView_setWidth]

/-! ### The two loops, pass by pass -/
section Loops
variable {b : Build} {p : PolyIndex} {fuel : Nat} {buf : RegState} {W : BitVec 21} {cnt : Count} {n : Nat}

theorem ne_of_seedTest_false (hseed : seedTest b p buf = false) : buf ≠ ckptRead b p 0#4 := fun h => by
  simp [(seedTest_iff b p buf).mpr h] at hseed

/-- The loop of R90 stops at the seed (R92). -/
theorem recoverLoop_of_seed (hseed : seedTest b p buf = true) : recoverLoop b p (fuel + 1) buf cnt n = some (.ok cnt, n) := by
  simp [recoverLoop, (seedTest_iff b p buf).mp hseed]

/-- It raises NOT_FOUND at the cap (R93). -/
theorem recoverLoop_of_cap (hseed : seedTest b p buf = false) (hcap : capReached b cnt = true) :
    recoverLoop b p (fuel + 1) buf cnt n = some (.notFound, n) := by
  simp [recoverLoop, ne_of_seedTest_false hseed, hcap]

/-- It goes on from the seed entry after a hit (R80, R94). -/
theorem recoverLoop_of_hit {k : EntryIndex} (hseed : seedTest b p buf = false) (hcap : capReached b cnt = false)
    (hit : ckcmp b p (revStep (polyRead b p) buf) = some k) :
    recoverLoop b p (fuel + 1) buf cnt n = recoverLoop b p fuel (ckptRead b p 0#4) (shortcutCount b k cnt) (n + 1) := by
  simp [recoverLoop, ne_of_seedTest_false hseed, hcap, hit, shortcutCount, countIncrement]

/-- It goes on from the reverse step's value without one (R94). -/
theorem recoverLoop_of_noHit (hseed : seedTest b p buf = false) (hcap : capReached b cnt = false)
    (hit : ckcmp b p (revStep (polyRead b p) buf) = none) :
    recoverLoop b p (fuel + 1) buf cnt n = recoverLoop b p fuel (revStep (polyRead b p) buf) (countIncrement cnt) (n + 1) := by
  simp [recoverLoop, ne_of_seedTest_false hseed, hcap, hit, countIncrement]

/-- The 21-bit loop makes the same four kinds of pass, its tests reading the low 17 bits (R73 (i)). -/
theorem wideLoop_of_seed (hseed : seedTest b p (lowView W) = true) : wideLoop b p (fuel + 1) W cnt = some (cnt, true) := by
  simp [wideLoop, hseed]

theorem wideLoop_of_cap (hseed : seedTest b p (lowView W) = false) (hcap : capReached b cnt = true) :
    wideLoop b p (fuel + 1) W cnt = some (cnt, false) := by
  simp [wideLoop, hseed, hcap]

theorem wideLoop_of_hit {k : EntryIndex} (hseed : seedTest b p (lowView W) = false) (hcap : capReached b cnt = false)
    (hit : ckcmp b p (revStep (polyRead b p) (lowView W)) = some k) :
    wideLoop b p (fuel + 1) W cnt = wideLoop b p fuel ((ckptRead b p 0#4).setWidth 21) (shortcutCount b k cnt) := by
  simp [wideLoop, hseed, hcap, lowView_wideRevStep, hit]

theorem wideLoop_of_noHit (hseed : seedTest b p (lowView W) = false) (hcap : capReached b cnt = false)
    (hit : ckcmp b p (revStep (polyRead b p) (lowView W)) = none) :
    wideLoop b p (fuel + 1) W cnt = wideLoop b p fuel (wideRevStep (polyRead b p) W) (countIncrement cnt) := by
  simp [wideLoop, hseed, hcap, lowView_wideRevStep, hit]

/-! ### The simulation -/

/-- The ends of the two loops that R73 calls the same: both at the seed with one count, both at the cap, or no end. -/
inductive SameEnd : Option (CallResult × Nat) → Option (Count × Bool) → Prop
  | seed (c : Count) (n : Nat) : SameEnd (some (.ok c, n)) (some (c, true))
  | cap (c : Count) (n : Nat) : SameEnd (some (.notFound, n)) (some (c, false))
  | none : SameEnd none none

/-- What the end of the 17-bit loop says of the end of the 21-bit loop (R73). -/
theorem SameEnd.wide_end {r : Option (CallResult × Nat)} {w : Option (Count × Bool)} (h : SameEnd r w) (c : Count) (n : Nat) :
    (r = some (.ok c, n) → w = some (c, true)) ∧ (r = some (.notFound, n) → ∃ c', w = some (c', false)) ∧
      (r = .none → w = .none) := by
  refine ⟨?_, ?_, ?_⟩ <;> rintro rfl
  · cases h; rfl
  · cases h; exact ⟨_, rfl⟩
  · cases h; rfl

/-- From buffers with one 17-bit view the loops make the same passes: every test reads the view, and every pass keeps it (R25, R73). -/
theorem sameEnd_loops (b : Build) (p : PolyIndex) (fuel : Nat) (W : BitVec 21) (cnt : Count) (n : Nat) :
    SameEnd (recoverLoop b p fuel (lowView W) cnt n) (wideLoop b p fuel W cnt) := by
  induction fuel generalizing W cnt n with
  | zero => exact .none
  | succ fuel ih =>
    cases hseed : seedTest b p (lowView W) with
    | true =>
      rw [recoverLoop_of_seed hseed, wideLoop_of_seed hseed]
      exact .seed cnt n
    | false =>
      cases hcap : capReached b cnt with
      | true =>
        rw [recoverLoop_of_cap hseed hcap, wideLoop_of_cap hseed hcap]
        exact .cap cnt n
      | false =>
        cases hit : ckcmp b p (revStep (polyRead b p) (lowView W)) with
        | some k =>
          rw [recoverLoop_of_hit hseed hcap hit, wideLoop_of_hit hseed hcap hit]
          simpa using ih ((ckptRead b p 0#4).setWidth 21) (shortcutCount b k cnt) (n + 1)
        | none =>
          rw [recoverLoop_of_noHit hseed hcap hit, wideLoop_of_noHit hseed hcap hit, ← lowView_wideRevStep]
          exact ih (wideRevStep (polyRead b p) W) (countIncrement cnt) (n + 1)

end Loops

/-- Settles O9: the two loads have one 17-bit view. -/
theorem wideBufferIsEquivalent : Obligations.WideBufferIsEquivalent := by
  refine ⟨fun M W => ⟨lowView_wideRevStep M W, ?_⟩, fun b p obs fuel n c => ?_⟩
  · rw [wideRevStep_eq]
    exact setWidth_and_highMask (revStep M (lowView W))
  · exact (sameEnd_loops b p fuel (workingBits obs) 0#32 0).wide_end c n

end Sys2Proof.Machine
end

section
/-! SUPPORT. The offset constants (R79) and the comparator CKCMP as the least match among entries 1..15 (R76, R78). -/

namespace Sys2Proof.Machine

/-! ### The offsets -/

/-- Entry 0 stands at the seed itself: `0*S - CKPT_BIAS` is 0 on the naturals. -/
@[simp] theorem offset_zero (b : Build) : offset b 0#4 = 0 := by simp [offset]

/-- `OFFSET(k) + CKPT_BIAS = k*S` for an entry of 1..15: the subtraction of R79 loses nothing. -/
theorem offset_add_bias (b : Build) {k : EntryIndex} (hk : k ≠ 0#4) :
    offset b k + b.ckptBias.val = k.toNat * ckptSpacing := by
  have hpos : 1 ≤ k.toNat := Nat.one_le_iff_ne_zero.mpr fun h => hk (BitVec.eq_of_toNat_eq h)
  unfold offset ckptSpacing
  omega

/-- Neighbouring entries stand more than one step apart, so that the offsets keep the order of the entries. -/
theorem offset_lt_of_lt (b : Build) {j k : EntryIndex} (h : j < k) : offset b j < offset b k := by
  have hlt : j.toNat < k.toNat := h
  unfold offset ckptSpacing
  omega

theorem offset_injective (b : Build) : Function.Injective (offset b) := by
  intro j k h
  rcases lt_trichotomy j.toNat k.toNat with hlt | heq | hgt
  · exact absurd h (offset_lt_of_lt b hlt).ne
  · exact BitVec.eq_of_toNat_eq heq
  · exact absurd h (offset_lt_of_lt b hgt).ne'

/-- Settles O11. -/
theorem offsetConstants : Obligations.OffsetConstants := by
  refine fun b => ⟨fun k hk => ?_, fun hb => ?_, fun hb => ?_⟩
  · have hsum : offset b k + b.ckptBias.val = k.toNat * 8192 := offset_add_bias b hk
    omega
  · simp [offset, ckptSpacing, hb]
  · simp [offset, ckptSpacing, hb]

/-! ### CKCMP -/

theorem mem_comparedEntries (k : EntryIndex) : k ∈ comparedEntries ↔ k ≠ 0#4 := by
  revert k; decide

theorem comparedEntries_increasing : comparedEntries.Pairwise (· < ·) := by decide

/-- In an increasing list the first match is the least one. -/
theorem find?_eq_some_iff_least {l : List EntryIndex} (hl : l.Pairwise (· < ·)) (q : EntryIndex → Bool) (k : EntryIndex) :
    l.find? q = some k ↔ k ∈ l ∧ q k = true ∧ ∀ j ∈ l, j < k → q j = false := by
  induction l with
  | nil => simp
  | cons a l ih =>
    obtain ⟨hfirst, htail⟩ := List.pairwise_cons.mp hl
    cases ha : q a with
    | true =>
      rw [List.find?_cons_of_pos ha, Option.some_inj]
      constructor
      · rintro rfl
        refine ⟨List.mem_cons_self, ha, fun j hj hlt => ?_⟩
        rcases List.mem_cons.mp hj with rfl | hmem
        · exact absurd hlt (BitVec.lt_irrefl j)
        · exact absurd hlt (BitVec.lt_asymm (hfirst j hmem))
      · rintro ⟨hk, -, hleast⟩
        rcases List.mem_cons.mp hk with rfl | hmem
        · rfl
        · simp [hleast a List.mem_cons_self (hfirst k hmem)] at ha
    | false =>
      rw [List.find?_cons_of_neg (by simp [ha]), ih htail]
      constructor
      · rintro ⟨hk, hq, hleast⟩
        exact ⟨List.mem_cons_of_mem a hk, hq, List.forall_mem_cons.mpr ⟨fun _ => ha, hleast⟩⟩
      · rintro ⟨hk, hq, hleast⟩
        have hne : k ≠ a := by rintro rfl; simp [ha] at hq
        exact ⟨List.mem_of_ne_of_mem hne hk, hq, (List.forall_mem_cons.mp hleast).2⟩

/-- A hit is on the least matching entry of 1..15 (R78). -/
theorem ckcmp_eq_some_iff (b : Build) (p : PolyIndex) (v : RegState) (k : EntryIndex) :
    ckcmp b p v = some k ↔
      k ≠ 0#4 ∧ v = ckptRead b p k ∧ ∀ j : EntryIndex, j ≠ 0#4 → j < k → v ≠ ckptRead b p j := by
  simp only [ckcmp, find?_eq_some_iff_least comparedEntries_increasing, mem_comparedEntries, beq_iff_eq, beq_eq_false_iff_ne]

/-- No hit: none of the entries 1..15 matches (R76). -/
theorem ckcmp_eq_none_iff (b : Build) (p : PolyIndex) (v : RegState) :
    ckcmp b p v = none ↔ ∀ k : EntryIndex, k ≠ 0#4 → v ≠ ckptRead b p k := by
  simp only [ckcmp, List.find?_eq_none, mem_comparedEntries, beq_iff_eq, ne_eq]

/-- Settles O10. -/
theorem checkpointCompareIsLeastMatch : Obligations.CheckpointCompareIsLeastMatch := fun b p v =>
  ⟨ckcmp_eq_some_iff b p v, ckcmp_eq_none_iff b p v⟩

end Sys2Proof.Machine
end

section
/-! SUPPORT. The distance function (R82), and where the entries of a well-formed image stand (R35, R36). -/

namespace Sys2Proof.Machine

/-! ### Distances under one mask -/
section Distance
variable {M : TapMask} {x : RegState} {d d' : Nat}

theorem IsDist.unique (h : IsDist M x d) (h' : IsDist M x d') : d = d' := by
  rcases lt_trichotomy d d' with hlt | heq | hgt
  · exact absurd h.1 (h'.2 d hlt)
  · exact heq
  · exact absurd h'.1 (h.2 d' hgt)

theorem Reachable.exists_isDist (h : Reachable M x) : ∃ d, IsDist M x d :=
  ⟨Nat.find h, Nat.find_spec h, fun _ => Nat.find_min h⟩

/-- From the period on, the forward sequence repeats earlier states. -/
theorem IsDist.lt_period {P : Nat} (hP : IsPeriod M P) (h : IsDist M x d) : d < P := by
  obtain ⟨hpos, hper, -⟩ := hP
  obtain ⟨hx, hleast⟩ := h
  refine lt_of_not_ge fun hge => hleast (d - P) (by omega) ?_
  calc (fwdStep M)^[d - P] seed = (fwdStep M)^[d - P] ((fwdStep M)^[P] seed) := by rw [hper]
    _ = (fwdStep M)^[d] seed := by rw [← Function.iterate_add_apply, Nat.sub_add_cancel hge]
    _ = x := hx

/-- Each reverse step comes one step nearer to the seed (R82). -/
theorem IsDist.revStep_iterate (h : IsDist M x d) {j : Nat} (hj : j ≤ d) : IsDist M ((revStep M)^[j] x) (d - j) := by
  obtain ⟨hx, hleast⟩ := h
  have hfwd : (fwdStep M)^[j] ((revStep M)^[j] x) = x := Function.LeftInverse.iterate (fwdStep_revStep M) j x
  refine ⟨(fwdStep_bijective M).injective.iterate j ?_, fun d' hd' he => hleast (j + d') (by omega) ?_⟩
  · rw [hfwd, ← Function.iterate_add_apply, Nat.add_sub_cancel' hj, hx]
  · rw [Function.iterate_add_apply, he, hfwd]

/-- The seed's reverse is the last state of the cycle (R82). -/
theorem IsPeriod.isDist_revStep_seed {P : Nat} (hP : IsPeriod M P) : IsDist M (revStep M seed) (P - 1) := by
  have ⟨hpos, hper, _⟩ := hP
  refine Laws.isDist_of_lt hP ((fwdStep_bijective M).injective ?_) (by omega)
  calc fwdStep M ((fwdStep M)^[P - 1] seed) = (fwdStep M)^[P - 1 + 1] seed := (Function.iterate_succ_apply' ..).symm
    _ = seed := by rw [Nat.sub_add_cancel hpos, hper]
    _ = fwdStep M (revStep M seed) := (fwdStep_revStep M seed).symm

end Distance

/-! ### The entries of a well-formed image -/
section Image
variable {b : Build} (hwf : WFRom b) (p : PolyIndex)
include hwf

theorem WFRom.ckptRead_zero : ckptRead b p 0#4 = seed := (hwf p).1

/-- The content law R35 in one clause: entry 0 stands at `OFFSET(0) = 0`. -/
theorem WFRom.ckptRead_eq (k : EntryIndex) : ckptRead b p k = (fwdStep (polyRead b p))^[offset b k] seed := by
  by_cases hk : k = 0#4
  · subst hk
    rw [offset_zero, hwf.ckptRead_zero p, Function.iterate_zero_apply]
  · exact (hwf p).2.1 k hk

/-- The period exceeds every offset (R36), so that entry k is at distance `OFFSET(k)` (R82). -/
theorem WFRom.isDist_ckptRead (k : EntryIndex) : IsDist (polyRead b p) (ckptRead b p k) (offset b k) := by
  obtain ⟨-, -, P, hP, hlast, -⟩ := hwf p
  exact Laws.isDist_of_lt hP (hwf.ckptRead_eq p k).symm ((offset_le_offset_last b k).trans_lt hlast)

/-- No distance reaches `16*S` (R36). -/
theorem WFRom.dist_lt {x : RegState} {d : Nat} (h : IsDist (polyRead b p) x d) : d < 16 * ckptSpacing := by
  obtain ⟨-, -, P, hP, -, hle⟩ := hwf p
  exact (h.lt_period hP).trans_le hle

/-- A value equals an entry only if it stands at that entry's offset. -/
theorem WFRom.offset_eq_of_eq_ckptRead {x : RegState} {d : Nat} {k : EntryIndex} (h : IsDist (polyRead b p) x d)
    (hx : x = ckptRead b p k) : d = offset b k :=
  h.unique (hx ▸ hwf.isDist_ckptRead p k)

/-- Different entries stand at different distances (R78). -/
theorem WFRom.ckptRead_injective : Function.Injective (ckptRead b p) := fun j _ h =>
  offset_injective b (hwf.offset_eq_of_eq_ckptRead p (hwf.isDist_ckptRead p j) h)

/-- In a well-formed image the comparator finds each of the entries 1..15 itself. -/
theorem WFRom.ckcmp_ckptRead {k : EntryIndex} (hk : k ≠ 0#4) : ckcmp b p (ckptRead b p k) = some k :=
  (ckcmp_eq_some_iff b p _ k).mpr ⟨hk, rfl, fun _ _ hlt heq => BitVec.ne_of_lt hlt (hwf.ckptRead_injective p heq).symm⟩

/-- The seed entry is no hit. -/
theorem WFRom.ckcmp_ckptRead_zero : ckcmp b p (ckptRead b p 0#4) = none :=
  (ckcmp_eq_none_iff b p _).mpr fun _ hk heq => hk (hwf.ckptRead_injective p heq).symm

end Image

/-- Settles O13. -/
theorem distanceLaws : Obligations.DistanceLaws := by
  refine fun b hwf p P hP => ⟨fun x hx => ?_, fun x d hd => hd.lt_period hP, fun x d hd h1 => hd.revStep_iterate h1,
    hP.isDist_revStep_seed, ?_, fun k _ => hwf.isDist_ckptRead p k⟩
  · obtain ⟨d, hd⟩ := hx.exists_isDist
    exact ⟨d, hd, fun d' hd' => hd'.unique hd⟩
  · simpa using hwf.isDist_ckptRead p 0#4

/-- Settles O12. -/
theorem checkpointHitIsUnique : Obligations.CheckpointHitIsUnique := by
  refine ⟨fun b hwf p => ⟨fun k k' h => hwf.ckptRead_injective p h, fun v k hhit => ?_⟩, fun b p v k hhit => ?_⟩
  · obtain ⟨hk, rfl, -⟩ := (ckcmp_eq_some_iff b p v k).mp hhit
    refine ⟨fun hseed => hk (hwf.ckptRead_injective p ?_), fun j hj => (hwf.ckptRead_injective p hj).symm⟩
    rw [hseed, hwf.ckptRead_zero p]
  · obtain ⟨-, hv, hleast⟩ := (ckcmp_eq_some_iff b p v k).mp hhit
    exact ⟨hv, fun j hj hvj => BitVec.not_lt.mp fun hlt => hleast j hj hlt hvj⟩

end Sys2Proof.Machine
end

section
/-! SUPPORT. A request in flight as run steps one after the other: when it is answered (R98), and how it goes on while no test holds. -/

namespace Sys2Proof.Machine

/-! ### Run steps and the rows of the host -/
section Flight
variable {b : Build} {e : Engine}

/-- No run step begins a flight. -/
theorem phase_run_of_runStep (h : (runStep b e).phase = .run) : e.phase = .run := by
  rcases runStep_cases b e with ⟨-, hstep⟩ | ⟨-, -, hstep⟩ | ⟨-, -, hstep⟩
  · simp [hstep] at h
  · simp [hstep] at h
  · simpa [hstep] using h

/-- An engine still in RUN was in RUN at every earlier run step. -/
theorem phase_run_of_runStep_iterate {i n : Nat} (hin : i ≤ n) (h : ((runStep b)^[n] e).phase = .run) :
    ((runStep b)^[i] e).phase = .run := by
  induction n, hin using Nat.le_induction with
  | base => exact h
  | succ n _ ih =>
    rw [Function.iterate_succ_apply'] at h
    exact ih (phase_run_of_runStep h)

/-- While the engine is in RUN, every row without a reset is a run step, whatever it shows (R96). -/
theorem engineRun_eq_runStep_iterate (id : Nat) {ts : List Turn} (hts : NoReset ts)
    (hrun : ∀ i < ts.length, ((runStep b)^[i] e).phase = .run) : engineRun b id ts e = (runStep b)^[ts.length] e := by
  induction ts generalizing e with
  | nil => rfl
  | cons t ts ih =>
    obtain ⟨hrst, htail⟩ := List.forall_mem_cons.mp hts
    have hstep : engineStep b id t e = runStep b e := engineStep_of_run hrst (hrun 0 (Nat.succ_pos _))
    calc engineRun b id (t :: ts) e = engineRun b id ts (runStep b e) := congrArg (engineRun b id ts) hstep
      _ = (runStep b)^[ts.length] (runStep b e) := ih htail fun i hi => hrun (i + 1) (Nat.succ_lt_succ hi)

/-- An accepted request that is in RUN for `n` run steps and has the response `r` after one more is answered with `r` after `n`
iterations (R98). -/
theorem answersAfter_of_runStep_iterate {id n : Nat} {w : Request} {idx : BitVec 8} {obs : BitVec 24} {r : Count × StatusCode}
    (hdec : decode w = .ok (.recover idx obs)) (hready : e.phase ≠ .run)
    (hrun : ((runStep b)^[n] (load id idx obs e)).phase = .run)
    (hend : out ((runStep b)^[n + 1] (load id idx obs e)) = some r) : AnswersAfter b id w n r e := by
  intro ts hts
  have hload : engineStep b id (requestTurn id w) e = load id idx obs e := engineStep_of_legal rfl rfl hdec hready
  have hserve (hle : ts.length ≤ n + 1) : serve b id w ts e = (runStep b)^[ts.length] (load id idx obs e) := by
    rw [serve, hload]
    exact engineRun_eq_runStep_iterate id hts fun i hi => phase_run_of_runStep_iterate (by omega) hrun
  refine ⟨fun hle => ?_, fun hlen => ?_⟩
  · rw [hserve (by omega)]
    exact phase_run_of_runStep_iterate hle hrun
  · rw [hserve hlen.le, hlen]
    exact hend

end Flight

/-! ### Plain iterations -/

/-- For `n` run steps from `e` no test holds: the buffer is not the seed entry, the cap is not reached, and CKCMP finds nothing. -/
def PlainFor (b : Build) (e : Engine) (n : Nat) : Prop :=
  ∀ i < n,
    (revStep (polyRead b e.sel))^[i] e.buf ≠ ckptRead b e.sel 0#4 ∧
    capReached b (e.cnt + BitVec.ofNat 32 i) = false ∧
    ckcmp b e.sel ((revStep (polyRead b e.sel))^[i + 1] e.buf) = none

/-- The engine `n` reverse steps on, each of them counted. -/
def advance (b : Build) (n : Nat) (e : Engine) : Engine :=
  { e with buf := (revStep (polyRead b e.sel))^[n] e.buf, cnt := e.cnt + BitVec.ofNat 32 n }

section Advance
variable (b : Build) (n : Nat) (e : Engine)
@[simp] theorem advance_phase : (advance b n e).phase = e.phase := rfl
@[simp] theorem advance_sel : (advance b n e).sel = e.sel := rfl
@[simp] theorem advance_buf : (advance b n e).buf = (revStep (polyRead b e.sel))^[n] e.buf := rfl
@[simp] theorem advance_cnt : (advance b n e).cnt = e.cnt + BitVec.ofNat 32 n := rfl
@[simp] theorem advance_zero : advance b 0 e = e := by simp [advance]
end Advance

theorem seedTest_eq_false_iff (b : Build) (p : PolyIndex) (x : RegState) :
    seedTest b p x = false ↔ x ≠ ckptRead b p 0#4 := by
  rw [← Bool.not_eq_true, seedTest_iff]

/-- What `n` run steps do while no test holds (R94). -/
theorem runStep_iterate_of_plainFor {b : Build} {e : Engine} {n : Nat} (h : PlainFor b e n) :
    (runStep b)^[n] e = advance b n e := by
  induction n with
  | zero => rw [advance_zero, Function.iterate_zero_apply]
  | succ n ih =>
    obtain ⟨hseed, hcap, hhit⟩ := h n (Nat.lt_succ_self n)
    rw [Function.iterate_succ_apply'] at hhit
    have hstep : runStep b (advance b n e) = iterate b (advance b n e) :=
      runStep_of_neither ((seedTest_eq_false_iff ..).mpr hseed) hcap
    rw [Function.iterate_succ_apply', ih fun i hi => h i (Nat.lt_succ_of_lt hi), hstep,
      iterate_of_noHit (e := advance b n e) hhit]
    simp [advance, Function.iterate_succ_apply', countIncrement, BitVec.ofNat_add, BitVec.add_assoc]

end Sys2Proof.Machine
end

section
/-! SUPPORT. Bounded work (R83): a reachable request makes plain iterations down to the nearest entry below it, and the shortcut from
there gives its distance. -/

namespace Sys2Proof.Machine

/-- `k` is the entry that stands nearest below distance `d` (R83); entry 0 is the seed. -/
def NearestBelow (b : Build) (d : Nat) (k : EntryIndex) : Prop :=
  offset b k < d ∧ ∀ j : EntryIndex, offset b j < d → offset b j ≤ offset b k

/-- Two neighbouring entries, and entry 15 and the end of a cycle, are at most `S` apart (R36, R79). -/
theorem NearestBelow.sub_le {b : Build} {d : Nat} {k : EntryIndex} (h : NearestBelow b d k) (hd : d < 16 * ckptSpacing) :
    d - offset b k ≤ ckptSpacing := by
  obtain ⟨-, hmax⟩ := h
  have hbias := b.ckptBias.isLt
  by_cases hk : k.toNat = 15
  · unfold offset ckptSpacing at *
    omega
  · have hsucc : (k + 1#4).toNat = k.toNat + 1 := by
      rw [BitVec.toNat_add, BitVec.toNat_ofNat]; omega
    have hlt : offset b k < offset b (k + 1#4) := offset_lt_of_lt b (by rw [BitVec.lt_def, hsucc]; omega)
    have hge : d ≤ offset b (k + 1#4) := le_of_not_gt fun hgt => absurd (hmax _ hgt) (not_le.mpr hlt)
    unfold offset ckptSpacing at *
    rw [hsucc] at hge
    omega

/-- A count below `S` is below every admissible cap (R5). -/
theorem capReached_eq_false_of_lt_spacing {b : Build} (hcap : b.CapAdmissible) {n : Nat} (hn : n < ckptSpacing) :
    capReached b (BitVec.ofNat 32 n) = false := by
  rw [← Bool.not_eq_true, capReached_iff, BitVec.toNat_ofNat]
  rintro ⟨c, hc, hle⟩
  obtain ⟨hmin, -⟩ := (capAdmissible_iff b).mp hcap c hc
  have hmod := Nat.mod_le n (2 ^ 32)
  omega

section Work
variable {b : Build} (hwf : WFRom b) {e : Engine} {d : Nat} {k : EntryIndex}
include hwf

/-- No state above distance 0 is the seed entry. -/
theorem revStep_iterate_ne_ckptRead_zero {p : PolyIndex} {x : RegState} (hdist : IsDist (polyRead b p) x d) {i : Nat}
    (hi : i < d) : (revStep (polyRead b p))^[i] x ≠ ckptRead b p 0#4 := fun heq => by
  have hzero := hwf.offset_eq_of_eq_ckptRead p (hdist.revStep_iterate hi.le) heq
  rw [offset_zero] at hzero
  omega

/-- The states strictly between two neighbouring entries match none (R83). -/
theorem ckcmp_eq_none_of_nearestBelow {p : PolyIndex} {x : RegState} (hdist : IsDist (polyRead b p) x d)
    (hk : NearestBelow b d k) {i : Nat} (hpos : 0 < i) (hi : i < d - offset b k) :
    ckcmp b p ((revStep (polyRead b p))^[i] x) = none := by
  refine (ckcmp_eq_none_iff ..).mpr fun j _ heq => ?_
  have hoff := hwf.offset_eq_of_eq_ckptRead p (hdist.revStep_iterate (by omega)) heq
  have hle := hk.2 j (by omega)
  omega

/-- The reverse step that comes to an entry goes on from the seed with that entry's offset added; entry 0 is no hit, and its offset
is 0 (R80, R83, R94). -/
theorem iterate_of_revStep_eq_ckptRead (h : revStep (polyRead b e.sel) e.buf = ckptRead b e.sel k) :
    iterate b e = { e with cnt := shortcutCount b k e.cnt, buf := ckptRead b e.sel 0#4 } := by
  by_cases hk : k = 0#4
  · subst hk
    rw [iterate_of_noHit (h ▸ hwf.ckcmp_ckptRead_zero e.sel), h]
    simp [shortcutCount]
  · exact iterate_of_hit (h ▸ hwf.ckcmp_ckptRead e.sel hk)

/-- From distance `d`, as many reverse steps as it stands above entry `k` lead to that entry. -/
theorem revStep_iterate_eq_ckptRead {p : PolyIndex} {x : RegState} (hdist : IsDist (polyRead b p) x d) (hle : offset b k ≤ d) :
    (revStep (polyRead b p))^[d - offset b k] x = ckptRead b p k := by
  have hdown := hdist.revStep_iterate (Nat.sub_le d (offset b k))
  rw [Nat.sub_sub_self hle] at hdown
  rw [← hdown.1, hwf.ckptRead_eq p k]

/-- The request in flight after its last iteration: at the seed, with its distance as the count (R83). -/
theorem runStep_iterate_of_nearestBelow (hcap : b.CapAdmissible) (hcnt : e.cnt = 0#32)
    (hdist : IsDist (polyRead b e.sel) e.buf d) (hk : NearestBelow b d k) :
    (runStep b)^[d - offset b k] e = { e with cnt := BitVec.ofNat 32 d, buf := ckptRead b e.sel 0#4 } := by
  have hbelow : offset b k < d := hk.1
  have hspacing : d - offset b k ≤ ckptSpacing := hk.sub_le (hwf.dist_lt e.sel hdist)
  have hseed (i : Nat) (hi : i < d) := revStep_iterate_ne_ckptRead_zero hwf hdist hi
  have hnocap (i : Nat) (hi : i < ckptSpacing) : capReached b (e.cnt + BitVec.ofNat 32 i) = false := by
    rw [hcnt, BitVec.zero_add]
    exact capReached_eq_false_of_lt_spacing hcap hi
  obtain ⟨m, hm⟩ : ∃ m, d - offset b k = m + 1 := Nat.exists_eq_succ_of_ne_zero (by omega)
  have hplain : PlainFor b e m := fun i hi =>
    ⟨hseed i (by omega), hnocap i (by omega), ckcmp_eq_none_of_nearestBelow hwf hdist hk (Nat.succ_pos i) (by omega)⟩
  have hlast : runStep b (advance b m e) = iterate b (advance b m e) :=
    runStep_of_neither ((seedTest_eq_false_iff ..).mpr (hseed m (by omega))) (hnocap m (by omega))
  have hentry : revStep (polyRead b e.sel) ((revStep (polyRead b e.sel))^[m] e.buf) = ckptRead b e.sel k := by
    have hdown := revStep_iterate_eq_ckptRead hwf hdist hbelow.le
    rwa [hm, Function.iterate_succ_apply'] at hdown
  have hcount : shortcutCount b k (advance b m e).cnt = BitVec.ofNat 32 d := by
    have hd : d = m + 1 + offset b k := by omega
    rw [hd, advance_cnt, hcnt, BitVec.zero_add, shortcutCount, countIncrement, BitVec.ofNat_add, BitVec.ofNat_add]
  rw [hm, Function.iterate_succ_apply', runStep_iterate_of_plainFor hplain, hlast,
    iterate_of_revStep_eq_ckptRead hwf (e := advance b m e) hentry, hcount]
  rfl

end Work

/-- Settles O14: plain iterations down to the nearest entry, and the shortcut from there; the retire answers with the count. -/
theorem boundedWork : Obligations.BoundedWork := by
  intro b hwf hcap id e idx obs d k hready hidx hdist _ hbelow hmax
  have hk : NearestBelow b d k := ⟨hbelow, hmax⟩
  have hflight := runStep_iterate_of_nearestBelow hwf (e := load id idx obs e) hcap rfl hdist hk
  refine ⟨Nat.sub_pos_of_lt hbelow, hk.sub_le (hwf.dist_lt _ hdist), revStep_iterate_eq_ckptRead hwf hdist hbelow.le,
    answersAfter_of_runStep_iterate (decode_encode_of_legal hidx obs) hready ?_ ?_⟩
  · rw [hflight]
    rfl
  · rw [Function.iterate_succ_apply', hflight, runStep_of_seed ((seedTest_iff ..).mpr rfl)]
    rfl

end Sys2Proof.Machine
end

section
/-! SUPPORT. The rules of spec/42_recover.md R91 to R97 as statements about `exec` and about the machine's step. -/

namespace Sys2Proof.Machine

/-! ### RECOVER presented to the current engine -/
section PresentRequest
variable {b : Build} {e : Engine} {idx : BitVec 8}

/-- In RUN the request is lost (R96). -/
theorem presentRequest_of_run (hrun : e.phase = .run) (id : Nat) (idx : BitVec 8) (obs : BitVec 24) :
    presentRequest b id idx obs e = runStep b e := by
  simp [presentRequest, hrun]

/-- In IDLE and DONE it goes to the index test (R91). -/
theorem presentRequest_of_ready (hready : e.phase ≠ .run) (id : Nat) (idx : BitVec 8) (obs : BitVec 24) :
    presentRequest b id idx obs e = accept id idx obs e := by
  cases hph : e.phase with
  | run => exact absurd hph hready
  | idle => simp [presentRequest, hph]
  | done => simp [presentRequest, hph]

/-- An index of 4..255 is BAD_INDEX (R91, R116). -/
theorem accept_of_illegal (hidx : 3#8 < idx) (id : Nat) (obs : BitVec 24) (e : Engine) :
    accept id idx obs e = raise .badIndex e := by
  have hlegal : legalIndex idx = false := by
    rw [← Bool.not_eq_true, legalIndex_iff]
    exact BitVec.not_le.mpr hidx
  simp [accept, hlegal]

end PresentRequest

/-- Settles O16, by the two branches of ACCEPT. -/
theorem recoverAcceptance : Obligations.RecoverAcceptance := by
  intro s e idx obs he hready
  have hexec : exec (.recover idx obs) s = .next (s.setEngine s.cur (accept s.cur idx obs e)) := by
    rw [exec_recover, onCurrent_of_some he, presentRequest_of_ready hready]
  refine ⟨fun hidx => ?_, fun hidx => ?_⟩
  · rw [hexec, accept_of_legal ((legalIndex_iff idx).mpr hidx), ← loadBuffer_eq]
    rfl
  · rw [hexec, accept_of_illegal hidx]
    rfl

/-- Settles O18: with or without the request, the engine makes its run step. -/
theorem recoverInRunIsLost : Obligations.RecoverInRunIsLost := by
  intro s e idx obs he hrun
  have hexec : exec (.recover idx obs) s = .next (s.setEngine s.cur (runStep s.build e)) := by
    rw [exec_recover, onCurrent_of_some he, presentRequest_of_run hrun]
  have hquiet : quietStep s = .next (s.setEngine s.cur (runStep s.build e)) := by
    rw [quietStep, onCurrent_of_some he, quietEngine, hrun]
  exact ⟨hexec.trans hquiet.symm, hexec⟩

/-! ### The step that presents a request -/

/-- With `rst = 0` and `start = 1` a turn whose word decodes is `exec` of the instruction (R91, R96). -/
theorem takeTurn_of_decode {t : Turn} {i : Instr} (hrst : t.rst = false) (hstart : t.start = true) (hdec : decode t.req = .ok i)
    (s : State) : takeTurn t s = exec i s := by
  simp [takeTurn, hrst, hstart, hdec]

/-- All 32 bits of a request are bits of the table's word (R45). -/
theorem tableWord_toNat (w : Request) : tableWord 32 w.toNat = w := by
  rw [tableWord, Nat.mod_eq_of_lt w.isLt, BitVec.ofNat_toNat, BitVec.setWidth_eq]

/-- The row that `withFetchWord` puts first is used up by the step, which leaves the rows that were there (log 14, 15). -/
theorem beginTurn_withFetchWord (s : State) (n w : Nat) :
    (s.withFetchWord n w).beginTurn (requestTurn s.cur (tableWord n w)) = { s with engines := s.engines.modify s.cur makeReady } :=
  rfl

/-- Settles O15. -/
theorem stepRunsDecodedRequest : Obligations.StepRunsDecodedRequest := by
  refine ⟨fun s t i hturn hrst hstart hdec => ⟨wellFormed_of_decode_ok hdec, ?_⟩, fun s w i hdec => ?_⟩
  · rw [step, hturn, takeTurn_of_decode hrst hstart hdec]
    rfl
  · have hturn : (s.withFetchWord 32 w.toNat).nextTurn = requestTurn s.cur (tableWord 32 w.toNat) := nextTurn_cons rfl
    have hreq : decode (requestTurn s.cur (tableWord 32 w.toNat)).req = .ok i := by rwa [requestTurn, tableWord_toNat]
    rw [step, hturn, takeTurn_of_decode rfl rfl hreq, beginTurn_withFetchWord]

/-! ### The tests of a run step -/

theorem seedTest_eq_false_of_ne {b : Build} {p : PolyIndex} {x : RegState} (h : x ≠ ckptRead b p 0#4) :
    seedTest b p x = false :=
  (seedTest_eq_false_iff b p x).mpr h

/-- CAPTEST passes iff the count is below the cap, if there is one (R93). -/
theorem capReached_eq_false_iff (b : Build) (cnt : Count) :
    capReached b cnt = false ↔ ∀ c, b.iterCap = some c → cnt.toNat < c := by
  rw [← Bool.not_eq_true, capReached_iff]
  simp only [not_exists, not_and, not_le]

/-! ### The step of a scheduled engine -/
section Scheduled
variable {s : State} {t : Turn} {e : Engine}

theorem step_of_scheduled (h : Scheduled s t e) : step s = .next (s.afterTurn t (engineStep s.build t.engine t e)) := by
  obtain ⟨rfl, he⟩ := h
  exact step_of_some he

/-- Whatever `start` and `req` show in RUN, the machine makes the run step (R96). -/
theorem step_of_scheduled_run (h : Scheduled s t e) (hrst : t.rst = false) (hrun : e.phase = .run) :
    step s = .next (s.afterTurn t (runStep s.build e)) := by
  rw [step_of_scheduled h, engineStep_of_run hrst hrun]

end Scheduled

/-- Settles O19: a row is used up with its engine's run step, and the two rows name one engine. -/
theorem stepIgnoresRequestInRun : Obligations.StepIgnoresRequestInRun := by
  intro s t t' rest e hsched hengine hrst hrst' he hrun
  have hstep : step s = .next (s.afterTurn t (runStep s.build e)) := step_of_scheduled_run ⟨nextTurn_cons hsched, he⟩ hrst hrun
  have hother : Scheduled { s with schedule := t' :: rest } t' e := ⟨nextTurn_cons rfl, hengine ▸ he⟩
  refine ⟨hstep, ?_⟩
  rw [hstep, step_of_scheduled_run hother hrst' hrun]
  simp [State.afterTurn, State.setEngine, State.beginTurn, hengine, hsched]

/-- Settles O20: the seed test comes first. -/
theorem stepRetires : Obligations.StepRetires := by
  intro s t e hsch hrst hrun hseed
  rw [step_of_scheduled_run hsch hrst hrun, runStep_of_seed ((seedTest_iff ..).mpr hseed)]
  rfl

/-- Settles O21: the seed test fails, and the cap test answers. -/
theorem stepFailsCap : Obligations.StepFailsCap := by
  intro s t e c hsch hrst hrun hseed hc hle
  have hcap : capReached s.build e.cnt = true := (capReached_iff ..).mpr ⟨c, hc, hle⟩
  rw [step_of_scheduled_run hsch hrst hrun, runStep_of_cap (seedTest_eq_false_of_ne hseed) hcap]
  rfl

/-- Settles O22: both tests pass, and CKCMP selects the branch of the iteration. -/
theorem stepIterates : Obligations.StepIterates := by
  intro s t e hsch hrst hrun hseed hcap
  have hstep : step s = .next (s.afterTurn t (iterate s.build e)) := by
    rw [step_of_scheduled_run hsch hrst hrun,
      runStep_of_neither (seedTest_eq_false_of_ne hseed) ((capReached_eq_false_iff ..).mpr hcap)]
  refine ⟨fun k hit => ?_, fun hmiss => ?_⟩
  · rw [hstep, iterate_of_hit hit]
    rfl
  · rw [hstep, iterate_of_noHit hmiss]
    rfl

/-- Settles O23. -/
theorem stepHolds : Obligations.StepHolds := by
  intro s t e hsch hrst hstart hready
  rw [step_of_scheduled hsch, engineStep_of_quiet hrst hstart hready]

/-- Settles O24: the reset step's engine is in IDLE, which fixes its outputs. -/
theorem stepResets : Obligations.StepResets := by
  intro s t e hsch hrst
  have hidle : (resetEngine t.engine e).phase = .idle := resetEngine_phase t.engine e
  refine ⟨resetEngine t.engine e, ?_, rfl, ready_of_idle hidle, done_of_idle hidle, out_of_idle hidle⟩
  rw [step_of_scheduled hsch, engineStep_of_rst hrst]

end Sys2Proof.Machine
end

section
/-! SUPPORT. The end of a flight: after how many iterations a request in RUN is answered, and with what (R98). The loop of the call
level (R90) makes the same passes. -/

namespace Sys2Proof.Machine

/-- The request in flight in `e` makes `n` iterations, and the run step after them shows the response `r`. -/
def EndsAfter (b : Build) (e : Engine) (n : Nat) (r : Count × StatusCode) : Prop :=
  ((runStep b)^[n] e).phase = .run ∧ out ((runStep b)^[n + 1] e) = some r

section EndsAfter
variable {b : Build} {e : Engine} {n m : Nat} {r r' : Count × StatusCode}

/-- One run step that stays in flight is one iteration more. -/
theorem EndsAfter.succ (h : EndsAfter b (runStep b e) n r) : EndsAfter b e (n + 1) r := h

theorem endsAfter_zero (hrun : e.phase = .run) (hend : out (runStep b e) = some r) : EndsAfter b e 0 r := ⟨hrun, hend⟩

/-- A flight that has ended is not in RUN any more. -/
theorem EndsAfter.lt_of_run (h : EndsAfter b e n r) (hrun : ((runStep b)^[m] e).phase = .run) : m ≤ n := by
  obtain ⟨-, hend⟩ := h
  by_contra hlt
  rw [out_of_run (phase_run_of_runStep_iterate (by omega) hrun)] at hend
  cases hend

/-- A flight ends once, with one response. -/
theorem EndsAfter.unique (h : EndsAfter b e n r) (h' : EndsAfter b e m r') : n = m ∧ r = r' := by
  obtain rfl : n = m := le_antisymm (h'.lt_of_run h.1) (h.lt_of_run h'.1)
  exact ⟨rfl, Option.some.inj (h.2.symm.trans h'.2)⟩

end EndsAfter

/-! ### The machine's view of a flight -/

/-- `n` rows that show nothing. -/
def quietRows (n : Nat) : List Turn := List.replicate n { engine := 0, rst := false, start := false, req := 0#32 }

theorem noReset_quietRows (n : Nat) : NoReset (quietRows n) := fun t ht => by
  rw [List.eq_of_mem_replicate ht]

@[simp] theorem length_quietRows (n : Nat) : (quietRows n).length = n := List.length_replicate

section Accepted
variable {b : Build} {id : Nat} {w : Request} {idx : BitVec 8} {obs : BitVec 24} {e : Engine}
  (hdec : decode w = .ok (.recover idx obs)) (hready : e.phase ≠ .run)
include hdec hready

/-- As long as it is in flight, an accepted request sees its run steps only. -/
theorem serve_eq_runStep_iterate {ts : List Turn} (hts : NoReset ts)
    (hrun : ∀ i < ts.length, ((runStep b)^[i] (load id idx obs e)).phase = .run) :
    serve b id w ts e = (runStep b)^[ts.length] (load id idx obs e) := by
  have hload : engineStep b id (requestTurn id w) e = load id idx obs e := engineStep_of_legal rfl rfl hdec hready
  rw [serve, hload]
  exact engineRun_eq_runStep_iterate id hts hrun

/-- A request in flight under quiet rows is in flight by its run steps. -/
theorem runStep_iterate_run_of_serve {n : Nat} (h : ∀ i ≤ n, (serve b id w (quietRows i) e).phase = .run) :
    ((runStep b)^[n] (load id idx obs e)).phase = .run := by
  induction n using Nat.strong_induction_on with
  | _ n ih =>
    have hbefore : ∀ i < (quietRows n).length, ((runStep b)^[i] (load id idx obs e)).phase = .run := by
      rw [length_quietRows]
      exact fun i hi => ih i hi fun j hj => h j (hj.trans hi.le)
    have hserve := serve_eq_runStep_iterate hdec hready (noReset_quietRows n) hbefore
    rw [length_quietRows] at hserve
    exact hserve ▸ h n le_rfl

/-- An accepted request is answered when its flight ends (R98). -/
theorem answersAfter_iff_endsAfter {n : Nat} {r : Count × StatusCode} :
    AnswersAfter b id w n r e ↔ EndsAfter b (load id idx obs e) n r := by
  refine ⟨fun h => ?_, fun ⟨hrun, hend⟩ => answersAfter_of_runStep_iterate hdec hready hrun hend⟩
  have hrun : ((runStep b)^[n] (load id idx obs e)).phase = .run :=
    runStep_iterate_run_of_serve hdec hready fun i hi => (h (quietRows i) (noReset_quietRows i)).1 (by simpa using hi)
  have hserve : serve b id w (quietRows (n + 1)) e = (runStep b)^[n + 1] (load id idx obs e) := by
    have hbefore : ∀ i < (quietRows (n + 1)).length, ((runStep b)^[i] (load id idx obs e)).phase = .run := by
      rw [length_quietRows]
      exact fun i hi => phase_run_of_runStep_iterate (Nat.le_of_lt_succ hi) hrun
    simpa using serve_eq_runStep_iterate hdec hready (noReset_quietRows (n + 1)) hbefore
  exact ⟨hrun, hserve ▸ (h (quietRows (n + 1)) (noReset_quietRows _)).2 (length_quietRows _)⟩

/-- It is never answered when its flight does not end (R118). -/
theorem neverAnswers_iff : NeverAnswers b id w e ↔ ∀ n, ((runStep b)^[n] (load id idx obs e)).phase = .run := by
  refine ⟨fun h n => runStep_iterate_run_of_serve hdec hready fun i _ => h (quietRows i) (noReset_quietRows i), fun h ts hts => ?_⟩
  rw [serve_eq_runStep_iterate hdec hready hts fun i _ => h i]
  exact h ts.length

end Accepted

/-! ### The call level -/

/-- The call's value that a response stands for: the status code tells which end it was (R51). -/
def CallResult.ofResponse (r : Count × StatusCode) : CallResult :=
  if r.2 = Status.ok.code then .ok r.1
  else if r.2 = Status.badIndex.code then .badIndex
  else .notFound

theorem ofResponse_response (r : CallResult) : CallResult.ofResponse r.response = r := by
  cases r with
  | ok c => rfl
  | badIndex => rfl
  | notFound => rfl

theorem response_injective : Function.Injective CallResult.response :=
  Function.LeftInverse.injective ofResponse_response

section CallLevel
variable {b : Build} {e : Engine}

/-- One run step and one pass of the loop of R90: both end with one response, or both go on from the same `SEL`, `BUF` and `CNT`. -/
theorem runStep_simulates_pass (hrun : e.phase = .run) :
    (∃ r : CallResult, out (runStep b e) = some r.response ∧
      ∀ fuel m, recoverLoop b e.sel (fuel + 1) e.buf e.cnt m = some (r, m)) ∨
    ((runStep b e).phase = .run ∧
      ∀ fuel m, recoverLoop b e.sel (fuel + 1) e.buf e.cnt m =
        recoverLoop b (runStep b e).sel fuel (runStep b e).buf (runStep b e).cnt (m + 1)) := by
  rcases runStep_cases b e with ⟨hseed, hstep⟩ | ⟨hseed, hcap, hstep⟩ | ⟨hseed, hcap, hstep⟩ <;> rw [hstep]
  · exact .inl ⟨.ok e.cnt, rfl, fun _ _ => recoverLoop_of_seed hseed⟩
  · exact .inl ⟨.notFound, rfl, fun _ _ => recoverLoop_of_cap hseed hcap⟩
  · refine .inr ⟨(iterate_phase b e).trans hrun, fun fuel m => ?_⟩
    rcases iterate_cases b e with ⟨k, hit, hiter⟩ | ⟨hmiss, hiter⟩ <;> rw [hiter]
    · exact recoverLoop_of_hit hseed hcap hit
    · exact recoverLoop_of_noHit hseed hcap hmiss

/-- A flight that ends gives the loop its value, with one pass of fuel more than iterations. -/
theorem recoverLoop_of_endsAfter {n : Nat} {r : CallResult} (hrun : e.phase = .run) (h : EndsAfter b e n r.response) (m : Nat) :
    recoverLoop b e.sel (n + 1) e.buf e.cnt m = some (r, m + n) := by
  induction n generalizing e m with
  | zero =>
    rcases runStep_simulates_pass (b := b) hrun with ⟨r', hend, hpass⟩ | ⟨hgoes, -⟩
    · obtain ⟨-, hresp⟩ := h.unique (endsAfter_zero hrun hend)
      rw [response_injective hresp]
      exact hpass 0 m
    · have hle : 1 ≤ 0 := h.lt_of_run (m := 1) hgoes
      omega
  | succ n ih =>
    rcases runStep_simulates_pass (b := b) hrun with ⟨r', hend, -⟩ | ⟨hgoes, hpass⟩
    · obtain ⟨hn, -⟩ := h.unique (endsAfter_zero hrun hend)
      omega
    · rw [hpass, ih hgoes h, Nat.add_right_comm, Nat.add_assoc]

/-- A value of the loop is the end of a flight. -/
theorem endsAfter_of_recoverLoop {fuel m k : Nat} {r : CallResult} (hrun : e.phase = .run)
    (h : recoverLoop b e.sel fuel e.buf e.cnt m = some (r, k)) : ∃ n, k = m + n ∧ EndsAfter b e n r.response := by
  induction fuel generalizing e m with
  | zero => cases h
  | succ fuel ih =>
    rcases runStep_simulates_pass (b := b) hrun with ⟨r', hend, hpass⟩ | ⟨hgoes, hpass⟩
    · cases (hpass fuel m).symm.trans h
      exact ⟨0, rfl, endsAfter_zero hrun hend⟩
    · obtain ⟨n, hk, hends⟩ := ih hgoes ((hpass fuel m).symm.trans h)
      exact ⟨n + 1, by omega, hends.succ⟩

/-- The loop has the value `r` with `n` iterations iff the flight ends so (R98). -/
theorem endsAfter_iff_recoverLoop (hrun : e.phase = .run) (r : CallResult) (n : Nat) :
    EndsAfter b e n r.response ↔ ∃ fuel, recoverLoop b e.sel fuel e.buf e.cnt 0 = some (r, n) := by
  refine ⟨fun h => ⟨n + 1, by simpa using recoverLoop_of_endsAfter hrun h 0⟩, fun ⟨fuel, h⟩ => ?_⟩
  obtain ⟨n', hn, hends⟩ := endsAfter_of_recoverLoop hrun h
  rwa [hn, Nat.zero_add]

/-- The loop has no value iff the flight does not end (R105, R118). -/
theorem run_forever_iff_recoverLoop_none (hrun : e.phase = .run) :
    (∀ n, ((runStep b)^[n] e).phase = .run) ↔ ∀ fuel, recoverLoop b e.sel fuel e.buf e.cnt 0 = none := by
  refine ⟨fun h fuel => ?_, fun h n => ?_⟩
  · cases hloop : recoverLoop b e.sel fuel e.buf e.cnt 0 with
    | none => rfl
    | some v =>
      obtain ⟨n, -, hends⟩ := endsAfter_of_recoverLoop (r := v.1) hrun hloop
      exact absurd (hends.lt_of_run (h (n + 1))) (Nat.not_succ_le_self n)
  · induction n with
    | zero => exact hrun
    | succ n ih =>
      rw [Function.iterate_succ_apply']
      rcases runStep_simulates_pass (b := b) ih with ⟨r, hend, -⟩ | ⟨hgoes, -⟩
      · have hends : EndsAfter b e n r.response := ⟨ih, by rwa [Function.iterate_succ_apply']⟩
        obtain ⟨fuel, hvalue⟩ := (endsAfter_iff_recoverLoop hrun r n).mp hends
        cases (h fuel).symm.trans hvalue
      · exact hgoes

end CallLevel

/-! ### A call and its operands -/

/-- A legal call runs the loop on what the acceptance loads (R47, R90, R91). -/
theorem recoverCount_of_legal {idx : BitVec 8} (hidx : idx ≤ 3#8) (b : Build) (fuel : Nat) (obs : BitVec 24) :
    recoverCount b fuel idx.toNat obs.toNat = recoverLoop b (selectorOf idx) fuel (loadBuffer obs) 0#32 0 := by
  have hle : ¬ 3 < idx.toNat := not_lt.mpr hidx
  have hsel : BitVec.ofNat 2 idx.toNat = selectorOf idx := rfl
  have hbuf : BitVec.ofNat 17 obs.toNat = loadBuffer obs := (loadBuffer_eq obs).symm
  rw [recoverCount, if_neg hle, hsel, hbuf]

/-- A call with another index is BAD_INDEX without an iteration (R90, R116). -/
theorem recoverCount_of_illegal {idx : BitVec 8} (hidx : 3#8 < idx) (b : Build) (fuel obs : Nat) :
    recoverCount b fuel idx.toNat obs = some (.badIndex, 0) :=
  if_pos hidx

/-- Settles O28: run steps and passes of the loop go side by side from what the acceptance loads. -/
theorem callLevelAgreesWithMachine : Obligations.CallLevelAgreesWithMachine := by
  intro b id e idx obs hready
  refine ⟨fun hidx => ?_, fun hidx => ⟨?_, fun fuel => recoverCount_of_illegal hidx b fuel obs.toNat⟩⟩
  · have hdec : decode (encode (.recover idx obs)) = .ok (.recover idx obs) := decode_encode_of_legal hidx obs
    have hrun : (load id idx obs e).phase = .run := load_phase id idx obs e
    refine ⟨fun r n => ?_, ?_⟩
    · simp only [recoverCount_of_legal hidx]
      exact (answersAfter_iff_endsAfter hdec hready).trans (endsAfter_iff_recoverLoop hrun r n)
    · simp only [recoverCount_of_legal hidx]
      exact (neverAnswers_iff hdec hready).trans (run_forever_iff_recoverLoop_none hrun)
  · have hstep : engineStep b id (requestTurn id (encode (.recover idx obs))) e = raise .badIndex e :=
      engineStep_of_illegal rfl rfl (decode_encode_of_illegal (BitVec.not_le.mpr hidx) obs) hready
    rw [hstep, out_of_done (raise_phase ..)]
    rfl

end Sys2Proof.Machine
end

section
/-! SUPPORT. How a flight over any ROM image ends (R101, R104, R105): plain iterations up to the first test that holds. -/

namespace Sys2Proof.Machine

/-! ### The first test that holds -/

/-- What is known of the response to the flight from `e` that ends after `n` iterations (R80, R93, R101): OK with a count of at most one
per iteration and one offset, or NOT_FOUND with the cap reached. -/
def FlightResponse (b : Build) (e : Engine) (n : Nat) (r : Count × StatusCode) : Prop :=
  (r.2 = Status.ok.code ∧ r.1.toNat ≤ e.cnt.toNat + n + offset b 15#4) ∨
  (r = (errResult, Status.notFound.code) ∧ capReached b (e.cnt + BitVec.ofNat 32 n) = true)

/-- The flight from `e` ends after at most `n` iterations. -/
def EndsWithin (b : Build) (e : Engine) (n : Nat) : Prop :=
  ∃ m ≤ n, ∃ r, EndsAfter b e m r ∧ FlightResponse b e m r

theorem EndsWithin.mono {b : Build} {e : Engine} {m n : Nat} (h : EndsWithin b e m) (hmn : m ≤ n) : EndsWithin b e n := by
  obtain ⟨i, hi, hend⟩ := h
  exact ⟨i, hi.trans hmn, hend⟩

theorem toNat_add_ofNat_le (cnt : Count) (n : Nat) : (cnt + BitVec.ofNat 32 n).toNat ≤ cnt.toNat + n := by
  rw [BitVec.toNat_add, BitVec.toNat_ofNat]
  omega

/-- The count of a shortcut, wrapped or not. -/
theorem shortcutCount_toNat_le (b : Build) (k : EntryIndex) (cnt : Count) (n : Nat) :
    (shortcutCount b k (cnt + BitVec.ofNat 32 n)).toNat ≤ cnt.toNat + (n + 1) + offset b 15#4 := by
  have hcnt := toNat_add_ofNat_le cnt n
  have hinc := toNat_add_ofNat_le (cnt + BitVec.ofNat 32 n) 1
  have hoff := toNat_add_ofNat_le (cnt + BitVec.ofNat 32 n + 1#32) (offset b k)
  have hlast := offset_le_offset_last b k
  simp only [shortcutCount, countIncrement]
  omega

section Flight
variable {b : Build} {e : Engine} {n : Nat}

theorem plainFor_zero (b : Build) (e : Engine) : PlainFor b e 0 := fun _ h => absurd h (Nat.not_lt_zero _)

theorem plainFor_succ (h : PlainFor b e n) (hseed : (advance b n e).buf ≠ ckptRead b e.sel 0#4)
    (hcap : capReached b (advance b n e).cnt = false)
    (hmiss : ckcmp b e.sel (revStep (polyRead b e.sel) (advance b n e).buf) = none) : PlainFor b e (n + 1) := by
  intro i hi
  rcases Nat.lt_succ_iff_lt_or_eq.mp hi with hlt | rfl
  · exact h i hlt
  · exact ⟨hseed, hcap, by rwa [Function.iterate_succ_apply']⟩

/-- A flight of plain iterations is still in RUN (R94). -/
theorem runStep_iterate_run_of_plainFor (hrun : e.phase = .run) (h : PlainFor b e n) : ((runStep b)^[n] e).phase = .run := by
  rw [runStep_iterate_of_plainFor h, advance_phase, hrun]

/-- After plain iterations the flight ends by the run step that comes next. -/
theorem endsAfter_of_plainFor {r : Count × StatusCode} (hrun : e.phase = .run) (h : PlainFor b e n)
    (hend : out (runStep b (advance b n e)) = some r) : EndsAfter b e n r :=
  ⟨runStep_iterate_run_of_plainFor hrun h, by rwa [Function.iterate_succ_apply', runStep_iterate_of_plainFor h]⟩

/-- RETIRE after plain iterations (R92). -/
theorem PlainFor.endsWithin_of_seed (hrun : e.phase = .run) (h : PlainFor b e n)
    (hseed : seedTest b e.sel (advance b n e).buf = true) : EndsWithin b e n := by
  have hstep : runStep b (advance b n e) = retire (advance b n e) := runStep_of_seed hseed
  refine ⟨n, le_rfl, ((advance b n e).cnt, Status.ok.code), endsAfter_of_plainFor hrun h (by rw [hstep]; rfl), .inl ⟨rfl, ?_⟩⟩
  exact (toNat_add_ofNat_le e.cnt n).trans (Nat.le_add_right _ _)

/-- CAPTEST fails after plain iterations (R93). -/
theorem PlainFor.endsAfter_of_cap (hrun : e.phase = .run) (h : PlainFor b e n)
    (hseed : seedTest b e.sel (advance b n e).buf = false) (hcap : capReached b (advance b n e).cnt = true) :
    EndsAfter b e n (errResult, Status.notFound.code) := by
  have hstep : runStep b (advance b n e) = raise .notFound (advance b n e) := runStep_of_cap hseed hcap
  exact endsAfter_of_plainFor hrun h (by rw [hstep]; rfl)

/-- At the cap a flight of plain iterations ends, with either response. -/
theorem PlainFor.endsWithin_of_cap (hrun : e.phase = .run) (h : PlainFor b e n)
    (hcap : capReached b (advance b n e).cnt = true) : EndsWithin b e n := by
  cases hseed : seedTest b e.sel (advance b n e).buf with
  | true => exact h.endsWithin_of_seed hrun hseed
  | false => exact ⟨n, le_rfl, _, h.endsAfter_of_cap hrun hseed hcap, .inr ⟨rfl, hcap⟩⟩

/-- The shortcut after plain iterations, and the retire that follows it (R80, R92, R94). -/
theorem PlainFor.endsWithin_of_hit {k : EntryIndex} (hrun : e.phase = .run) (h : PlainFor b e n)
    (hseed : seedTest b e.sel (advance b n e).buf = false) (hcap : capReached b (advance b n e).cnt = false)
    (hit : ckcmp b e.sel (revStep (polyRead b e.sel) (advance b n e).buf) = some k) : EndsWithin b e (n + 1) := by
  have hhit : (runStep b)^[n + 1] e =
      { advance b n e with cnt := shortcutCount b k (advance b n e).cnt, buf := ckptRead b e.sel 0#4 } := by
    rw [Function.iterate_succ_apply', runStep_iterate_of_plainFor h, runStep_of_neither hseed hcap,
      iterate_of_hit (e := advance b n e) hit]
    rfl
  refine ⟨n + 1, le_rfl, (shortcutCount b k (advance b n e).cnt, Status.ok.code), ⟨?_, ?_⟩, .inl ⟨rfl, ?_⟩⟩
  · rw [hhit]
    exact hrun
  · rw [Function.iterate_succ_apply', hhit, runStep_of_seed ((seedTest_iff ..).mpr rfl)]
    rfl
  · exact shortcutCount_toNat_le b k e.cnt n

/-- For any number of iterations a flight makes plain ones only, or it ends within them: by the first test that holds. -/
theorem plainFor_or_endsWithin (hrun : e.phase = .run) (n : Nat) : PlainFor b e n ∨ EndsWithin b e n := by
  induction n with
  | zero => exact .inl (plainFor_zero b e)
  | succ n ih =>
    rcases ih with h | hends
    · cases hseed : seedTest b e.sel (advance b n e).buf with
      | true => exact .inr ((h.endsWithin_of_seed hrun hseed).mono n.le_succ)
      | false =>
        cases hcap : capReached b (advance b n e).cnt with
        | true => exact .inr ((h.endsWithin_of_cap hrun hcap).mono n.le_succ)
        | false =>
          cases hit : ckcmp b e.sel (revStep (polyRead b e.sel) (advance b n e).buf) with
          | some k => exact .inr (h.endsWithin_of_hit hrun hseed hcap hit)
          | none => exact .inl (plainFor_succ h (ne_of_seedTest_false hseed) hcap hit)
    · exact .inr (hends.mono n.le_succ)

end Flight

/-! ### Under a finite cap -/

/-- After as many plain iterations as the cap leaves room for, it is reached (R93). -/
theorem capReached_advance {b : Build} {e : Engine} {c : Nat} (hc : b.iterCap = some c) (hmax : c ≤ iterCapMax) :
    capReached b (advance b (c - e.cnt.toNat) e).cnt = true := by
  have hcap : c ≤ 2 ^ 31 := hmax
  refine (capReached_iff ..).mpr ⟨c, hc, ?_⟩
  rw [advance_cnt, BitVec.toNat_add, BitVec.toNat_ofNat]
  omega

/-- From every `CNT`, a flight ends within as many iterations as the cap leaves room for (R101, R102). -/
theorem endsWithin_of_cap {b : Build} {e : Engine} {c : Nat} (hc : b.iterCap = some c) (hmax : c ≤ iterCapMax)
    (hrun : e.phase = .run) : EndsWithin b e (c - e.cnt.toNat) := by
  rcases plainFor_or_endsWithin (b := b) hrun (c - e.cnt.toNat) with h | h
  · exact h.endsWithin_of_cap hrun (capReached_advance hc hmax)
  · exact h

/-- Settles O34: the flight from `CNT = 0` ends within `ITER_CAP` iterations, by NOT_FOUND only at the cap. -/
theorem finiteCapEndsEveryRequest : Obligations.FiniteCapEndsEveryRequest := by
  intro b c hc hadm id e idx obs hready hidx
  have hmax : c ≤ iterCapMax := ((capAdmissible_iff b).mp hadm c hc).2
  obtain ⟨n, hn, r, hends, hresp⟩ := endsWithin_of_cap hc hmax (load_phase id idx obs e)
  have hle : n ≤ c := hn.trans (Nat.sub_le ..)
  refine ⟨n, r, hle, (answersAfter_iff_endsAfter (decode_encode_of_legal hidx obs) hready).mpr hends, ?_⟩
  rcases hresp with ⟨hok, hcount⟩ | ⟨hnotFound, hcap⟩
  · refine .inl ⟨hok, hcount.trans ?_⟩
    have hzero : (load id idx obs e).cnt.toNat = 0 := rfl
    omega
  · refine .inr ⟨hnotFound, le_antisymm hle ?_⟩
    obtain ⟨c', hc', hreached⟩ := (capReached_iff ..).mp hcap
    obtain rfl : c = c' := Option.some.inj (hc.symm.trans hc')
    calc c ≤ (0#32 + BitVec.ofNat 32 n).toNat := hreached
      _ ≤ 0 + n := toNat_add_ofNat_le 0#32 n
      _ = n := Nat.zero_add n

/-! ### On a cycle without an entry -/

/-- On such a cycle neither the seed test nor CKCMP ever holds (R104). -/
theorem plainFor_of_offCycle {b : Build} {e : Engine} {n : Nat} (h : OffCycle b e.sel e.buf)
    (hcap : ∀ i < n, capReached b (e.cnt + BitVec.ofNat 32 i) = false) : PlainFor b e n := fun i hi =>
  ⟨h i 0#4, hcap i hi, (ckcmp_eq_none_iff ..).mpr fun k _ => h (i + 1) k⟩

/-- Settles O32: `ITER_CAP` plain iterations, and then the cap. -/
theorem offCycleEndsNotFound : Obligations.OffCycleEndsNotFound := by
  intro b c hc hadm id e idx obs hready hidx hoff
  have hmax : c ≤ iterCapMax := ((capAdmissible_iff b).mp hadm c hc).2
  have hbelow : ∀ i < c, capReached b (0#32 + BitVec.ofNat 32 i) = false := fun i hi =>
    (capReached_eq_false_iff ..).mpr fun c' hc' => by
      obtain rfl : c = c' := Option.some.inj (hc.symm.trans hc')
      exact (toNat_add_ofNat_le 0#32 i).trans_lt (by simpa using hi)
  have hplain : PlainFor b (load id idx obs e) c := plainFor_of_offCycle hoff hbelow
  exact (answersAfter_iff_endsAfter (decode_encode_of_legal hidx obs) hready).mpr <|
    hplain.endsAfter_of_cap rfl (seedTest_eq_false_of_ne (hoff c 0#4)) (capReached_advance (e := load id idx obs e) hc hmax)

theorem capReached_of_none {b : Build} (hnone : b.iterCap = none) (cnt : Count) : capReached b cnt = false := by
  simp [capReached, hnone]

/-- Without a cap, nothing on such a cycle ends the plain iterations (R105). -/
theorem plainFor_of_offCycle_of_none {b : Build} {e : Engine} (hnone : b.iterCap = none) (h : OffCycle b e.sel e.buf) (n : Nat) :
    PlainFor b e n :=
  plainFor_of_offCycle h fun _ _ => capReached_of_none hnone _

/-- Settles O33: run steps without end, each of them counted. -/
theorem offCycleHangsWithoutCap : Obligations.OffCycleHangsWithoutCap := by
  intro b hnone id e idx obs hready hidx hoff
  have hdec : decode (encode (.recover idx obs)) = .ok (.recover idx obs) := decode_encode_of_legal hidx obs
  have hplain : ∀ n, PlainFor b (load id idx obs e) n := plainFor_of_offCycle_of_none hnone hoff
  have hrun (n : Nat) : ((runStep b)^[n] (load id idx obs e)).phase = .run := runStep_iterate_run_of_plainFor rfl (hplain n)
  refine ⟨(neverAnswers_iff hdec hready).mpr hrun, fun ts hts => ?_⟩
  rw [serve_eq_runStep_iterate hdec hready hts fun i _ => hrun i, runStep_iterate_of_plainFor (hplain ts.length)]
  exact ⟨BitVec.zero_add _, rfl, rfl⟩

/-! ### A whole cycle of plain iterations -/

/-- Every 17-bit value comes back to itself within 2^17 reverse steps (R70). -/
theorem exists_period_revStep (M : TapMask) (x : RegState) : ∃ p, 0 < p ∧ p ≤ 2 ^ 17 ∧ (revStep M)^[p] x = x := by
  have hcard : Fintype.card RegState = 2 ^ 17 := by
    rw [← FinEnum.card_eq_fintypeCard]
    exact FinEnum.card_bitVec 17
  refine ⟨Function.minimalPeriod (revStep M) x, ?_, hcard ▸ Function.minimalPeriod_le_card, Function.iterate_minimalPeriod⟩
  exact Function.minimalPeriod_pos_of_mem_periodicPts ((revStep_bijective M).injective.mem_periodicPts x)

/-- So the first 2^17 values of the reverse sequence are all of them. -/
theorem exists_lt_revStep_iterate_eq (M : TapMask) (x : RegState) (j : Nat) :
    ∃ i < 2 ^ 17, (revStep M)^[i] x = (revStep M)^[j] x := by
  obtain ⟨p, hpos, hle, hper⟩ := exists_period_revStep M x
  exact ⟨j % p, (Nat.mod_lt j hpos).trans_le hle, Function.IsPeriodicPt.iterate_mod_apply hper j⟩

/-- And so are the 2^17 values after the first. -/
theorem exists_lt_revStep_iterate_succ_eq (M : TapMask) (x : RegState) (j : Nat) :
    ∃ i < 2 ^ 17, (revStep M)^[i + 1] x = (revStep M)^[j] x := by
  obtain ⟨p, hpos, -, hper⟩ := exists_period_revStep M x
  obtain ⟨i, hi, heq⟩ := exists_lt_revStep_iterate_eq M x (j + (p - 1))
  refine ⟨i, hi, ?_⟩
  calc (revStep M)^[i + 1] x = (revStep M)^[j + (p - 1) + 1] x := by
        rw [Function.iterate_succ_apply', heq, ← Function.iterate_succ_apply' (revStep M)]
    _ = (revStep M)^[j + p] x := by rw [Nat.add_assoc, Nat.sub_add_cancel hpos]
    _ = (revStep M)^[j] x := by rw [Function.iterate_add_apply, hper]

/-- A flight that meets no entry in 2^17 iterations is on a cycle without one (R105). -/
theorem offCycle_of_plainFor {b : Build} {e : Engine} (h : PlainFor b e (2 ^ 17)) : OffCycle b e.sel e.buf := by
  intro j k
  by_cases hk : k = 0#4
  · obtain ⟨i, hi, heq⟩ := exists_lt_revStep_iterate_eq (polyRead b e.sel) e.buf j
    obtain ⟨hseed, -, -⟩ := h i hi
    rwa [hk, ← heq]
  · obtain ⟨i, hi, heq⟩ := exists_lt_revStep_iterate_succ_eq (polyRead b e.sel) e.buf j
    obtain ⟨-, -, hmiss⟩ := h i hi
    rw [← heq]
    exact (ckcmp_eq_none_iff ..).mp hmiss k hk

/-- Settles O35: a flight that does not end within one cycle never ends. -/
theorem uncappedRunEndsWithinCycle : Obligations.UncappedRunEndsWithinCycle := by
  intro b hnone id e idx obs hready hidx n r hanswer
  have hends : EndsAfter b (load id idx obs e) n r :=
    (answersAfter_iff_endsAfter (decode_encode_of_legal hidx obs) hready).mp hanswer
  rcases plainFor_or_endsWithin (b := b) (load_phase id idx obs e) (2 ^ 17) with h | ⟨m, hm, r', hends', hresp⟩
  · have hplain := plainFor_of_offCycle_of_none hnone (offCycle_of_plainFor h) (n + 1)
    exact absurd (hends.lt_of_run (runStep_iterate_run_of_plainFor rfl hplain)) (Nat.not_succ_le_self n)
  · obtain ⟨rfl, rfl⟩ := hends.unique hends'
    rcases hresp with ⟨hok, hcount⟩ | ⟨-, hcap⟩
    · have hzero : (load id idx obs e).cnt.toNat = 0 := rfl
      exact ⟨hm, hok, by omega⟩
    · rw [capReached_of_none hnone] at hcap
      cases hcap

end Sys2Proof.Machine
end

section
/-! SUPPORT. Reachable inputs of a well-formed image (R99, R100), and the unreachable ones (R104). -/

namespace Sys2Proof.Machine

/-! ### The entry below a distance -/

/-- Entry 0 stands below every distance of at least 1, so that there is a nearest entry (R83). -/
theorem exists_nearestBelow (b : Build) {d : Nat} (hd : 1 ≤ d) : ∃ k, NearestBelow b d k := by
  have hzero : (0#4 : EntryIndex) ∈ Finset.univ.filter fun k => offset b k < d := by
    simp only [Finset.mem_filter, Finset.mem_univ, true_and, offset_zero]
    omega
  obtain ⟨k, hk, hmax⟩ := Finset.exists_max_image _ (offset b) ⟨0#4, hzero⟩
  simp only [Finset.mem_filter, Finset.mem_univ, true_and] at hk hmax
  exact ⟨k, hk, hmax⟩

theorem offset_mono (b : Build) {j k : EntryIndex} (h : j.toNat ≤ k.toNat) : offset b j ≤ offset b k :=
  Nat.sub_le_sub_right (Nat.mul_le_mul_right ckptSpacing h) _

/-- No entry stands between two neighbouring ones: the offsets keep the order of the entries. -/
theorem nearestBelow_of_le_next {b : Build} {d : Nat} {j k : EntryIndex} (hnext : k.toNat = j.toNat + 1)
    (hlt : offset b j < d) (hle : d ≤ offset b k) : NearestBelow b d j := by
  refine ⟨hlt, fun i hi => offset_mono b ?_⟩
  have hik : i.toNat < k.toNat := by
    by_contra hge
    have hoff : offset b k ≤ offset b i := offset_mono b (not_lt.mp hge)
    omega
  omega

/-! ### The answers -/
section Reachable
variable {b : Build} (hwf : WFRom b) (hcap : b.CapAdmissible) {e : Engine} (hready : e.phase ≠ .run)
  {idx : BitVec 8} (hidx : idx ≤ 3#8) (id : Nat) {obs : BitVec 24} {d : Nat}

include hwf hready hidx in
/-- The seed is answered by the first run step (R100). -/
theorem answersAfter_of_seed (hseed : loadBuffer obs = seed) :
    AnswersAfter b id (encode (.recover idx obs)) 0 (0#32, 0#2) e := by
  have htest : seedTest b (load id idx obs e).sel (load id idx obs e).buf = true := by
    rw [seedTest_iff, load_buf, hseed, hwf.ckptRead_zero]
  refine (answersAfter_iff_endsAfter (decode_encode_of_legal hidx obs) hready).mpr (endsAfter_zero rfl ?_)
  rw [runStep_of_seed htest]
  rfl

include hwf hcap hready hidx in
/-- Another reachable value is answered after the steps down to its nearest entry (R83). -/
theorem answersAfter_of_nearestBelow {k : EntryIndex} (hdist : IsDist (polyRead b (selectorOf idx)) (loadBuffer obs) d)
    (hk : NearestBelow b d k) :
    AnswersAfter b id (encode (.recover idx obs)) (d - offset b k) (BitVec.ofNat 32 d, 0#2) e := by
  obtain ⟨-, -, -, hanswer⟩ :=
    boundedWork b hwf hcap id e idx obs d k hready hidx hdist (Nat.one_le_of_lt hk.1) hk.1 hk.2
  exact hanswer

end Reachable

/-- Settles O29: at distance 0 the seed, and above it the nearest entry. -/
theorem reachableInputReturnsItsDistance : Obligations.ReachableInputReturnsItsDistance := by
  intro b hwf hcap id e idx obs d hready hidx hdist
  refine ⟨?_, fun P hP => ⟨hdist.lt_period hP, hP.le⟩⟩
  rcases Nat.eq_zero_or_pos d with rfl | hpos
  · exact ⟨0, Nat.zero_le _, answersAfter_of_seed hwf hready hidx id hdist.1.symm⟩
  · obtain ⟨k, hk⟩ := exists_nearestBelow b hpos
    exact ⟨d - offset b k, hk.sub_le (hwf.dist_lt _ hdist), answersAfter_of_nearestBelow hwf hcap hready hidx id hdist hk⟩

/-! ### Named inputs -/

/-- Neighbouring entries stand `S` apart, but for entry 1, which stands `S - CKPT_BIAS` above the seed (R79). -/
theorem offset_sub_offset_pred (b : Build) {j k : EntryIndex} (hnext : k.toNat = j.toNat + 1) :
    offset b k - offset b j = if k = 1#4 then ckptSpacing - b.ckptBias.val else ckptSpacing := by
  have hbias := b.ckptBias.isLt
  have hone : k = 1#4 ↔ j.toNat = 0 := by
    rw [← BitVec.toNat_inj, hnext, BitVec.toNat_ofNat]
    omega
  unfold offset ckptSpacing
  by_cases hj : j.toNat = 0
  · rw [if_pos (hone.mpr hj)]
    omega
  · rw [if_neg (mt hone.mp hj)]
    omega

/-- Each of the entries 1..15 has one before it. -/
theorem exists_pred_entry {k : EntryIndex} (hk : k ≠ 0#4) : ∃ j : EntryIndex, k.toNat = j.toNat + 1 := by
  have hpos : k.toNat ≠ 0 := fun h => hk (BitVec.eq_of_toNat_eq h)
  refine ⟨BitVec.ofNat 4 (k.toNat - 1), ?_⟩
  rw [BitVec.toNat_ofNat]
  omega

/-- `S` steps from the seed is a distance in a well-formed image: the period is greater (R36). -/
theorem WFRom.isDist_spacing {b : Build} (hwf : WFRom b) (p : PolyIndex) :
    IsDist (polyRead b p) ((fwdStep (polyRead b p))^[ckptSpacing] seed) ckptSpacing := by
  obtain ⟨-, -, P, hP, hlast, -⟩ := hwf p
  refine Laws.isDist_of_lt hP rfl (lt_of_le_of_lt ?_ hlast)
  have hbias := b.ckptBias.isLt
  unfold ckptSpacing
  omega

/-- With `CKPT_BIAS = 1` entry 1 stands one step below `S`; with 0 it stands at `S`, and the seed is nearest below (R81). -/
theorem exists_nearestBelow_spacing (b : Build) :
    ∃ k, NearestBelow b ckptSpacing k ∧ ckptSpacing - offset b k = if b.ckptBias = 1 then 1 else ckptSpacing := by
  by_cases hbias : b.ckptBias = 1
  · have hone : offset b 1#4 = 8191 := by simp [offset, ckptSpacing, hbias]
    have htwo : offset b 2#4 = 16383 := by simp [offset, ckptSpacing, hbias]
    refine ⟨1#4, nearestBelow_of_le_next (k := 2#4) rfl ?_ ?_, ?_⟩
    · rw [hone]; decide
    · rw [htwo]; decide
    · rw [hone, if_pos hbias]; rfl
  · have hzero : b.ckptBias = 0 := by omega
    have hone : offset b 1#4 = ckptSpacing := by simp [offset, hzero]
    refine ⟨0#4, nearestBelow_of_le_next (k := 1#4) rfl ?_ hone.ge, ?_⟩
    · rw [offset_zero]; decide
    · rw [offset_zero, if_neg hbias, Nat.sub_zero]

/-- Settles O30: each input has a known distance and a known nearest entry below it. -/
theorem seedAndCheckpointInputs : Obligations.SeedAndCheckpointInputs := by
  intro b hwf hcap id e idx obs hready hidx
  refine ⟨answersAfter_of_seed hwf hready hidx id, fun k hk hentry => ?_, fun hspacing => ?_⟩
  · obtain ⟨j, hnext⟩ := exists_pred_entry hk
    have hlt : offset b j < offset b k := offset_lt_of_lt b (by rw [BitVec.lt_def]; omega)
    have hanswer := answersAfter_of_nearestBelow hwf hcap hready hidx id (hentry ▸ hwf.isDist_ckptRead (selectorOf idx) k)
      (nearestBelow_of_le_next hnext hlt le_rfl)
    rwa [offset_sub_offset_pred b hnext] at hanswer
  · obtain ⟨k, hk, hwork⟩ := exists_nearestBelow_spacing b
    have hanswer := answersAfter_of_nearestBelow hwf hcap hready hidx id (hspacing ▸ hwf.isDist_spacing (selectorOf idx)) hk
    rwa [hwork] at hanswer

/-! ### Unreachable inputs -/

/-- A value whose reverse cycle meets an entry is that entry's offset and the steps to it away from the seed. -/
theorem WFRom.reachable_of_revStep_iterate_eq {b : Build} (hwf : WFRom b) {p : PolyIndex} {x : RegState} {j : Nat} {k : EntryIndex}
    (h : (revStep (polyRead b p))^[j] x = ckptRead b p k) : Reachable (polyRead b p) x := by
  refine ⟨j + offset b k, ?_⟩
  rw [Function.iterate_add_apply, ← hwf.ckptRead_eq p k, ← h]
  exact Function.LeftInverse.iterate (fwdStep_revStep (polyRead b p)) j x

/-- A reachable value comes back to the seed by as many reverse steps as it is away (R70, R104). -/
theorem WFRom.offCycle_iff {b : Build} (hwf : WFRom b) (p : PolyIndex) (x : RegState) :
    OffCycle b p x ↔ ¬ Reachable (polyRead b p) x := by
  refine ⟨fun hoff ⟨d, hd⟩ => hoff d 0#4 ?_, fun hun j k h => hun (hwf.reachable_of_revStep_iterate_eq h)⟩
  rw [← hd, hwf.ckptRead_zero]
  exact Function.LeftInverse.iterate (revStep_fwdStep (polyRead b p)) d seed

/-- Settles O31. -/
theorem unreachableIffOffCycle : Obligations.UnreachableIffOffCycle := by
  refine fun b hwf p => ⟨hwf.offCycle_iff p, (hwf.offCycle_iff p 0#17).mpr ?_⟩
  rintro ⟨d, hd⟩
  exact fwdStep_iterate_seed_ne_zero (polyRead b p) d hd

end Sys2Proof.Machine
end

section
/-! SUPPORT. The machine whose host presents nothing more (R102, R146): the engines step in turn, which is the model's own choice
(log 6), and each makes quiet steps until its flight ends. -/

namespace Sys2Proof.Machine

/-! ### One engine without requests -/
section Quiet
variable {b : Build} {e : Engine}

theorem quietEngine_of_run (hrun : e.phase = .run) : quietEngine b e = runStep b e := by
  simp [quietEngine, hrun]

theorem quietEngine_of_ready (hready : e.phase ≠ .run) : quietEngine b e = e := by
  cases hph : e.phase with
  | run => exact absurd hph hready
  | idle => simp [quietEngine, hph]
  | done => simp [quietEngine, hph]

/-- An engine still in RUN has made run steps only: out of RUN it would have stayed there. -/
theorem quietEngine_iterate_of_run {n : Nat} (h : ((quietEngine b)^[n] e).phase = .run) :
    (quietEngine b)^[n] e = (runStep b)^[n] e := by
  induction n with
  | zero => rfl
  | succ n ih =>
    rw [Function.iterate_succ_apply'] at h
    have hbefore : ((quietEngine b)^[n] e).phase = .run := by
      by_contra hready
      rw [quietEngine_of_ready hready] at h
      exact hready h
    rw [Function.iterate_succ_apply', quietEngine_of_run hbefore, ih hbefore, Function.iterate_succ_apply']

/-- Under a finite cap, `ITER_CAP + 1` quiet steps take every engine out of RUN, whatever its `CNT` was (R102). -/
theorem quietEngine_iterate_phase_ne_run {c : Nat} (hc : b.iterCap = some c) (hmax : c ≤ iterCapMax) :
    ((quietEngine b)^[c + 1] e).phase ≠ .run := by
  intro hend
  have hflight : ((runStep b)^[c + 1] e).phase = .run := quietEngine_iterate_of_run hend ▸ hend
  have hrun : e.phase = .run := phase_run_of_runStep_iterate (Nat.zero_le (c + 1)) hflight
  obtain ⟨n, hn, r, hends, -⟩ := endsWithin_of_cap hc hmax hrun
  have hle : c + 1 ≤ n := hends.lt_of_run hflight
  omega

end Quiet

/-! ### The turns of an empty schedule -/

/-- How many of the next `n` turns of an empty schedule are those of engine `j`, the turns going round `N` engines from the one after
`cur` (log 6). -/
def turnsOf (N cur j n : Nat) : Nat := Nat.count (fun i => (cur + 1 + i) % N = j) n

/-- The first turn is that of the engine after `cur`; the others go round from it. -/
theorem turnsOf_succ (N cur j n : Nat) :
    turnsOf N cur j (n + 1) = turnsOf N ((cur + 1) % N) j n + if (cur + 1) % N = j then 1 else 0 := by
  have hshift (i : Nat) : (cur + 1 + (i + 1)) % N = ((cur + 1) % N + 1 + i) % N := by
    rw [Nat.add_assoc _ 1 i, Nat.mod_add_mod, Nat.add_comm 1 i]
  simp only [turnsOf, Nat.count_succ', hshift, Nat.add_zero]

/-- In `m` rounds every engine has `m` turns. -/
theorem turnsOf_rounds {N cur j : Nat} (hcur : cur < N) (hj : j < N) (m : Nat) : turnsOf N cur j (N * m) = m := by
  have hpos : 0 < N := by omega
  have hturn (i : Nat) : (cur + 1 + i) % N = j ↔ i ≡ N - 1 - cur + j [MOD N] := by
    have hmod : (cur + 1 + (N - 1 - cur + j)) % N = j := by
      have hsum : cur + 1 + (N - 1 - cur + j) = j + N := by omega
      rw [hsum, Nat.add_mod_right, Nat.mod_eq_of_lt hj]
    have hshift : cur + 1 + i ≡ cur + 1 + (N - 1 - cur + j) [MOD N] ↔ i ≡ N - 1 - cur + j [MOD N] :=
      ⟨Nat.ModEq.add_left_cancel' _, Nat.ModEq.add_left _⟩
    rw [← hshift, Nat.ModEq, hmod]
  simp only [turnsOf, hturn, Nat.count_modEq_card (N * m) hpos, Nat.mul_mod_right, Nat.mul_div_cancel_left m hpos,
    Nat.not_lt_zero, if_false, Nat.add_zero]

/-- One step with nothing scheduled: the engine after `cur` makes a quiet step. -/
theorem step_of_empty_schedule {s : State} (hsched : s.schedule = []) (hthere : s.engines ≠ []) :
    ∃ s', step s = .next s' ∧ s'.schedule = [] ∧ s'.cur = (s.cur + 1) % s.engines.length ∧
      ∀ j e, s.engines[j]? = some e →
        s'.engines[j]? = some (if (s.cur + 1) % s.engines.length = j then quietEngine s.build e else e) := by
  have hturn : s.nextTurn = { engine := (s.cur + 1) % s.engines.length, rst := false, start := false, req := 0#32 } := by
    rw [State.nextTurn, hsched]
  have hlt : s.nextTurn.engine < s.engines.length := by
    rw [hturn]
    exact Nat.mod_lt _ (List.length_pos_of_ne_nil hthere)
  have hstep := step_of_some (List.getElem?_eq_getElem hlt)
  refine ⟨_, hstep, by rw [step_next_schedule hstep, hsched]; rfl, by rw [afterTurn_cur, hturn], fun j e he => ?_⟩
  by_cases hj : (s.cur + 1) % s.engines.length = j
  · have hself : s.nextTurn.engine = j := by rw [hturn]; exact hj
    subst hself
    rw [step_next_self hstep he, if_pos hj, hturn]
    rfl
  · rw [step_next_other hstep (by rw [hturn]; exact Ne.symm hj), he, if_neg hj]

/-- After `n` steps with nothing scheduled every engine has made as many quiet steps as it had turns. -/
theorem runSteps_of_empty_schedule {s : State} (hsched : s.schedule = []) (hthere : s.engines ≠ []) (n : Nat) :
    ∃ s', runSteps n s = .next s' ∧ s'.engines.length = s.engines.length ∧
      ∀ j e, s.engines[j]? = some e →
        s'.engines[j]? = some ((quietEngine s.build)^[turnsOf s.engines.length s.cur j n] e) := by
  induction n generalizing s with
  | zero => exact ⟨s, rfl, rfl, fun j e he => by simpa [turnsOf] using he⟩
  | succ n ih =>
    obtain ⟨s₁, hstep, hsched₁, hcur₁, hengines₁⟩ := step_of_empty_schedule hsched hthere
    have hlength₁ : s₁.engines.length = s.engines.length := step_next_length hstep
    have hthere₁ : s₁.engines ≠ [] := by rwa [← List.length_pos_iff, hlength₁, List.length_pos_iff]
    obtain ⟨s', hrun, hlength, hengines⟩ := ih hsched₁ hthere₁
    refine ⟨s', (runSteps_succ_of_next hstep n).trans hrun, hlength.trans hlength₁, fun j e he => ?_⟩
    rw [hengines j _ (hengines₁ j e he), hlength₁, hcur₁, step_next_build hstep, turnsOf_succ]
    by_cases hj : (s.cur + 1) % s.engines.length = j
    · rw [if_pos hj, if_pos hj, Function.iterate_succ_apply]
    · rw [if_neg hj, if_neg hj]
      rfl

/-- Settles O42: in `ITER_CAP + 1` rounds every engine makes `ITER_CAP + 1` quiet steps. -/
theorem quietMachineEndsEveryRequest : Obligations.QuietMachineEndsEveryRequest := by
  intro s c hsched hcur hc hadm
  have hmax : c ≤ iterCapMax := ((capAdmissible_iff s.build).mp hadm c hc).2
  have hthere : s.engines ≠ [] := List.ne_nil_of_length_pos (Nat.zero_lt_of_lt hcur)
  obtain ⟨s', hrun, hlength, hengines⟩ := runSteps_of_empty_schedule hsched hthere (s.engines.length * (c + 1))
  refine ⟨s', hrun, fun e' he' => ?_⟩
  obtain ⟨j, hj, rfl⟩ := List.getElem_of_mem he'
  have hlt : j < s.engines.length := hlength ▸ hj
  have hquiet := hengines j _ (List.getElem?_eq_getElem hlt)
  rw [turnsOf_rounds hcur hlt, List.getElem?_eq_getElem hj, Option.some.injEq] at hquiet
  rw [hquiet]
  exact quietEngine_iterate_phase_ne_run hc hmax

end Sys2Proof.Machine
end

section
/-! SUPPORT. Which bits of a request the block reads (R47, R121): `IDX` and the low 17 bits of `OBS`, and no others. -/

namespace Sys2Proof.Machine

/-! ### The bits that are read -/

/-- The mask leaves out bits 23:17 alone (R47). -/
theorem readMask_getLsbD : ∀ i < 32, (0xFF01FFFF#32).getLsbD i = decide (i < 17 ∨ 24 ≤ i) := by decide

section ReadBits
variable {w w' : Request} (h : w &&& 0xFF01FFFF#32 = w' &&& 0xFF01FFFF#32)
include h

theorem getLsbD_eq_of_and_readMask {i : Nat} (hi : i < 17 ∨ 24 ≤ i) : w.getLsbD i = w'.getLsbD i := by
  by_cases h32 : i < 32
  · simpa [readMask_getLsbD i h32, hi] using congrArg (·.getLsbD i) h
  · rw [BitVec.getLsbD_of_ge w i (by omega), BitVec.getLsbD_of_ge w' i (by omega)]

/-- `IDX` lies above bits 23:17 (R45). -/
theorem indexField_eq_of_and_readMask : indexField w = indexField w' := by
  apply BitVec.eq_of_getLsbD_eq
  intro i _
  have hbit : w.getLsbD (24 + i) = w'.getLsbD (24 + i) := getLsbD_eq_of_and_readMask h (.inr (Nat.le_add_right 24 i))
  simp only [indexField, BitVec.getLsbD_extractLsb', hbit]

/-- What the load keeps of `OBS` lies below them (R47). -/
theorem loadBuffer_obsField_eq_of_and_readMask : loadBuffer (obsField w) = loadBuffer (obsField w') := by
  rw [loadBuffer_eq, loadBuffer_eq]
  apply BitVec.eq_of_getLsbD_eq
  intro i hi
  have hbit : w.getLsbD i = w'.getLsbD i := getLsbD_eq_of_and_readMask h (.inl hi)
  simp only [obsField, BitVec.getLsbD_extractLsb', Nat.zero_add, hbit]

end ReadBits

/-! ### The steps that read them -/

/-- LOAD reads `OBS` through the buffer load alone (R91). -/
theorem load_congr_obs {obs obs' : BitVec 24} (h : loadBuffer obs = loadBuffer obs') (id : Nat) (idx : BitVec 8) (e : Engine) :
    load id idx obs e = load id idx obs' e := by
  simp only [load, h]

/-- An engine step reads of its request the index and what the load keeps of `OBS`, if it reads it at all (R91 to R97). -/
theorem engineStep_congr_request {t t' : Turn} (hrst : t.rst = t'.rst) (hstart : t.start = t'.start)
    (hidx : indexField t.req = indexField t'.req) (hobs : loadBuffer (obsField t.req) = loadBuffer (obsField t'.req))
    (b : Build) (id : Nat) (e : Engine) : engineStep b id t e = engineStep b id t' e := by
  cases h : t.rst with
  | true => rw [engineStep_of_rst h, engineStep_of_rst (hrst ▸ h)]
  | false =>
    have h' : t'.rst = false := hrst ▸ h
    by_cases hrun : e.phase = .run
    · rw [engineStep_of_run h hrun, engineStep_of_run h' hrun]
    · cases hs : t.start with
      | false => rw [engineStep_of_quiet h hs hrun, engineStep_of_quiet h' (hstart ▸ hs) hrun]
      | true =>
        have hs' : t'.start = true := hstart ▸ hs
        by_cases hlegal : indexField t.req ≤ 3#8
        · rw [engineStep_of_legal h hs (decode_of_legal hlegal) hrun,
            engineStep_of_legal h' hs' (decode_of_legal (hidx ▸ hlegal)) hrun, load_congr_obs hobs, hidx]
        · rw [engineStep_of_illegal h hs (decode_of_illegal hlegal) hrun,
            engineStep_of_illegal h' hs' (decode_of_illegal (hidx ▸ hlegal)) hrun]

/-- The step that uses up the row `t`, whether its engine is there or not (R126). -/
theorem step_of_cons (s : State) (t : Turn) (rest : List Turn) :
    step { s with schedule := t :: rest } =
      onCurrent (fun id e => engineStep s.build id t e) { s with cur := t.engine, schedule := rest } :=
  takeTurn_eq_onCurrent t _

/-- Settles O4: the two rows make the same engine step of every engine. -/
theorem requestHighBitsIgnored : Obligations.RequestHighBitsIgnored := by
  intro s t rest w w' h
  have hidx : indexField w = indexField w' := indexField_eq_of_and_readMask h
  have hobs : loadBuffer (obsField w) = loadBuffer (obsField w') := loadBuffer_obsField_eq_of_and_readMask h
  have hengine (id : Nat) (e : Engine) :
      engineStep s.build id { t with req := w } e = engineStep s.build id { t with req := w' } e :=
    engineStep_congr_request (t := { t with req := w }) (t' := { t with req := w' }) rfl rfl hidx hobs s.build id e
  simp only [step_of_cons, hengine]

end Sys2Proof.Machine
end

section
/-! SUPPORT. The shortcut as the last allowed iteration (R80, R92, R119): the seed test of the next run step comes before its cap
test. -/

namespace Sys2Proof.Machine

/-- The adjusted count of a hit in the iteration that makes `n` of them is `n + OFFSET(k)` (R80). -/
theorem shortcutCount_eq_ofNat (b : Build) (k : EntryIndex) {cnt : Count} {n : Nat} (h : cnt.toNat + 1 = n) :
    shortcutCount b k cnt = BitVec.ofNat 32 (n + offset b k) := by
  have hcnt : countIncrement cnt = BitVec.ofNat 32 n := by
    rw [← h, BitVec.ofNat_add, BitVec.ofNat_toNat, BitVec.setWidth_eq, countIncrement]
  rw [shortcutCount, hcnt, BitVec.ofNat_add]

section Hit
variable {b : Build} {e : Engine} {k : EntryIndex}

/-- A run step that takes the shortcut (R80, R94). -/
theorem runStep_of_hit (hseed : e.buf ≠ ckptRead b e.sel 0#4) (hcap : capReached b e.cnt = false)
    (hit : ckcmp b e.sel (revStep (polyRead b e.sel) e.buf) = some k) :
    runStep b e = { e with cnt := shortcutCount b k e.cnt, buf := ckptRead b e.sel 0#4 } := by
  rw [runStep_of_neither (seedTest_eq_false_of_ne hseed) hcap, iterate_of_hit hit]

/-- The run step after a shortcut retires, whatever the cap says of the adjusted count (R92, R119). -/
theorem runStep_runStep_of_hit (hseed : e.buf ≠ ckptRead b e.sel 0#4) (hcap : capReached b e.cnt = false)
    (hit : ckcmp b e.sel (revStep (polyRead b e.sel) e.buf) = some k) : runStep b (runStep b e) = retire (runStep b e) := by
  rw [runStep_of_hit hseed hcap hit]
  exact runStep_of_seed ((seedTest_iff ..).mpr rfl)

end Hit

/-- Settles O27: the first step is the shortcut, whose count reaches the cap; the second is the retire. -/
theorem lastIterationHitEndsOk : Obligations.LastIterationHitEndsOk := by
  intro b e c k hc hadm hrun hcnt hseed hit id t t' hrst hrst'
  have hmax : c ≤ iterCapMax := ((capAdmissible_iff b).mp hadm c hc).2
  have hcap : capReached b e.cnt = false := by
    refine (capReached_eq_false_iff ..).mpr fun c' hc' => ?_
    cases hc.symm.trans hc'
    omega
  have hhit : runStep b e = { e with cnt := shortcutCount b k e.cnt, buf := ckptRead b e.sel 0#4 } :=
    runStep_of_hit hseed hcap hit
  have hfirst : engineRun b id [t] e = runStep b e := engineStep_of_run hrst hrun
  have hsecond : engineRun b id [t, t'] e = retire (runStep b e) :=
    calc engineRun b id [t, t'] e = engineStep b id t' (runStep b e) := congrArg (engineStep b id t') hfirst
      _ = runStep b (runStep b e) := engineStep_of_run hrst' (by rw [hhit]; exact hrun)
      _ = retire (runStep b e) := runStep_runStep_of_hit hseed hcap hit
  refine ⟨?_, ?_⟩
  · have hbelow : e.cnt.toNat < iterCapMax := by omega
    rw [hfirst, hhit]
    refine (capReached_iff ..).mpr ⟨c, hc, ?_⟩
    rw [shortcutCount_toNat b k hbelow]
    omega
  · rw [hsecond, hhit, ← shortcutCount_eq_ofNat b k hcnt]
    rfl

end Sys2Proof.Machine
end
